-- ==== Sys2Proof/Word.lean ====
section
/-! DEFINITION. The word, byte and index types of the CORE (00_scope.md R6, R8; 20_memory.md R41). -/

namespace Sys2Proof

/-- A word: an unsigned integer in [0, 2^32 - 1] (R8). -/
abbrev Word := BitVec 32

/-- A byte: an unsigned integer in [0, 255] (R8). -/
abbrev Byte := BitVec 8

/-- A position 0..15 in a file of 16 words. R41: an index can never be out of range. -/
abbrev Pos := Fin 16

/-- A byte index 0..63 in the keystream buffer (R41). -/
abbrev ByteIdx := Fin 64

/-- A 16-word state, position order 0..15 (R20, R22). -/
abbrev Words16 := Vector Word 16

/-- A 64-byte keystream block (R24). -/
abbrev Block64 := Vector Byte 64

/-- The legal rotation amounts 1..31, a type of 31 elements (R83, U1): `ROTL32` has no value at 0. -/
abbrev RotAmount := { n : Fin 32 // n ≠ 0 }

end Sys2Proof
end

