-- ==== Sys2Proof/Config.lean ====
section
/-! DEFINITION. What the spec leaves to the implementation or gives no value for: the open parameters of 00_scope.md
R7 that are not arguments, and the free values of 93_implementation_defined.md. Nothing here has a body to compute. -/

namespace Sys2Proof.Config

/-- What the combinational block `rotl32` drives on its output when its `n` port is 0: any value (R86, U1). The CORE
never drives the port so. Log entry 3. -/
opaque rotl32AtZero : Word → Word

/-- Which of the applicable errors `init_state` reports when both lengths are wrong: any of them (U7). Log entry 4. -/
opaque initErrorPick : (key : List Byte) → (counter : Word) → (nonce : List Byte) → Nat

/-- Which of the applicable errors `xor_stream` reports when several apply: any of them (U7). Log entry 4. -/
opaque streamErrorPick : (key nonce : List Byte) → (c0 : Word) → (input : List Byte) → Nat

/-- `N_QR`, how many quarter-round units the state mixer has: 1, 2 or 4 (R7). An argument wherever it is used. -/
inductive NQr where
  | one
  | two
  | four
  deriving DecidableEq, Repr

end Sys2Proof.Config
end

