-- ==== Sys2Proof/Syntax.lean ====
section
/-! DEFINITION. The commands of the CORE: one constructor per row of spec/opcode_table.json (30_encoding.md R63). -/

namespace Sys2Proof

/-- The eighteen commands with their operands (R62, R63). Every operand is an unsigned field taken directly from
`ARG` (R64); `v` of `lds` is the whole data operand `cmd_data` (R60). -/
inductive Instr where
  /-- `ADDW pd, ps` (R87). -/
  | addw (pd ps : Pos)
  /-- `XORW pd, ps` (R88). -/
  | xorw (pd ps : Pos)
  /-- `ROLW pd, n` (R89): n is the 5-bit field 0..31, of which 0 is refused when the command runs. -/
  | rolw (pd : Pos) (n : Fin 32)
  /-- `QR a, b, c, d` (R105). -/
  | qr (a b c d : Pos)
  /-- `COLR` (R120). -/
  | colr
  /-- `DIAGR` (R121). -/
  | diagr
  /-- `DBLR` (R122). -/
  | dblr
  /-- `MIX` (R123). -/
  | mix
  /-- `INIT` (R136). -/
  | init
  /-- `FFWD` (R137). -/
  | ffwd
  /-- `SER` (R138). -/
  | ser
  /-- `BLOCK` (R139). -/
  | block
  /-- `LDS i, v` (R150). -/
  | lds (i : Pos) (v : Word)
  /-- `RDS i` (R151). -/
  | rds (i : Pos)
  /-- `RDW i` (R152). -/
  | rdw (i : Pos)
  /-- `RDKB j` (R153). -/
  | rdkb (j : ByteIdx)
  /-- `RDKW i` (R154). -/
  | rdkw (i : Pos)
  /-- `RDST` (R155). -/
  | rdst
  deriving DecidableEq, Repr

end Sys2Proof
end

