-- ==== Sys2Proof/WellFormed.lean ====
section
/-! DEFINITION. The checks on operand values that the encoding admits and the command refuses (30_encoding.md R66):
`QR` with two equal positions (R103, R105) and `ROLW` with n = 0 (R83, R89). An ill-formed command is still a command
the decoder reads; it faults when it runs. -/

namespace Sys2Proof

/-- Four different positions (R103). -/
abbrev PositionsDistinct (a b c d : Pos) : Prop :=
  a ≠ b ∧ a ≠ c ∧ a ≠ d ∧ b ≠ c ∧ b ≠ d ∧ c ≠ d

/-- The operands of a command are values for which the spec gives it an effect other than a fault. -/
def Instr.wellFormed : Instr → Bool
  | .rolw _ n => decide (n ≠ 0)
  | .qr a b c d => decide (PositionsDistinct a b c d)
  | .addw _ _ | .xorw _ _ | .colr | .diagr | .dblr | .mix | .init | .ffwd | .ser | .block
  | .lds _ _ | .rds _ | .rdw _ | .rdkb _ | .rdkw _ | .rdst => true

end Sys2Proof
end

