-- ==== Sys2Proof/Decode.lean ====
section
/-! DEFINITION. The command encoding of 30_encoding.md (R60 to R67): fields, formats, opcode map, the decoder (total on
every pair of words, refusing by name) and the encoder written from the same tables. -/

namespace Sys2Proof

/-- `v[hi:lo]`: bits hi down to lo of v as an unsigned integer (R8). -/
def bits (v : Word) (hi lo : Nat) : Nat := v.toNat / 2 ^ lo % 2 ^ (hi + 1 - lo)

/-- The six `ARG` formats (R62). -/
inductive Format where
  | N
  | Q
  | P2
  | PN
  | I
  | J
  deriving DecidableEq, Repr

/-- The eighteen opcodes (R63). -/
inductive Opcode where
  | addw
  | xorw
  | rolw
  | qr
  | colr
  | diagr
  | dblr
  | mix
  | init
  | ffwd
  | ser
  | block
  | lds
  | rds
  | rdw
  | rdkb
  | rdkw
  | rdst
  deriving DecidableEq, Repr

/-- The rows of R63's table, in its order. -/
def Opcode.all : List Opcode :=
  [.addw, .xorw, .rolw, .qr, .colr, .diagr, .dblr, .mix, .init, .ffwd, .ser, .block,
    .lds, .rds, .rdw, .rdkb, .rdkw, .rdst]

/-- Column `OPC` of R63. -/
def Opcode.code : Opcode → Nat
  | .addw => 0x01
  | .xorw => 0x02
  | .rolw => 0x03
  | .qr => 0x10
  | .colr => 0x20
  | .diagr => 0x21
  | .dblr => 0x22
  | .mix => 0x23
  | .init => 0x30
  | .ffwd => 0x31
  | .ser => 0x32
  | .block => 0x33
  | .lds => 0x40
  | .rds => 0x41
  | .rdw => 0x42
  | .rdkb => 0x43
  | .rdkw => 0x44
  | .rdst => 0x45

/-- Column `format` of R63. -/
def Opcode.format : Opcode → Format
  | .addw | .xorw => .P2
  | .rolw => .PN
  | .qr => .Q
  | .colr | .diagr | .dblr | .mix | .init | .ffwd | .ser | .block | .rdst => .N
  | .lds | .rds | .rdw | .rdkw => .I
  | .rdkb => .J

/-- Column `match` of R63. -/
def Opcode.matchWord : Opcode → Word
  | .addw => 0x01000000
  | .xorw => 0x02000000
  | .rolw => 0x03000000
  | .qr => 0x10000000
  | .colr => 0x20000000
  | .diagr => 0x21000000
  | .dblr => 0x22000000
  | .mix => 0x23000000
  | .init => 0x30000000
  | .ffwd => 0x31000000
  | .ser => 0x32000000
  | .block => 0x33000000
  | .lds => 0x40000000
  | .rds => 0x41000000
  | .rdw => 0x42000000
  | .rdkb => 0x43000000
  | .rdkw => 0x44000000
  | .rdst => 0x45000000

/-- Column `mask` of R63. -/
def Opcode.maskWord : Opcode → Word
  | .addw | .xorw => 0xFFFFFF00
  | .rolw => 0xFFFFE00F
  | .qr => 0xFFFF0000
  | .colr | .diagr | .dblr | .mix | .init | .ffwd | .ser | .block | .rdst => 0xFFFFFFFF
  | .lds | .rds | .rdw | .rdkw => 0xFFFFFFF0
  | .rdkb => 0xFFFFFFC0

/-- The opcode with a given `OPC` number, none for the other 238 numbers (R65 a). -/
def Opcode.ofCode? (n : Nat) : Option Opcode := Opcode.all.find? (fun o => o.code == n)

/-- The reserved bits of `ARG` under a format are all 0 (R62). -/
def Format.argReservedClear (f : Format) (cmd : Word) : Bool :=
  match f with
  | .N => bits cmd 15 0 == 0
  | .Q => true
  | .P2 => bits cmd 15 8 == 0
  | .PN => bits cmd 15 13 == 0 && bits cmd 3 0 == 0
  | .I => bits cmd 15 4 == 0
  | .J => bits cmd 15 6 == 0

/-- `RSV` and the reserved bits of `ARG` are all 0 (R61, R62; R70 step 3). -/
def Opcode.reservedClear (o : Opcode) (cmd : Word) : Bool :=
  bits cmd 23 16 == 0 && o.format.argReservedClear cmd

/-- The 4-bit position field with its lowest bit at bit lo (R64: taken directly, nothing scaled or extended). -/
def posField (cmd : Word) (lo : Nat) : Pos := Fin.ofNat 16 (bits cmd (lo + 3) lo)

/-- The operands of an opcode, laid out as R62's format table has them. -/
def Opcode.assemble (o : Opcode) (cmd cmdData : Word) : Instr :=
  match o with
  | .addw => .addw (posField cmd 4) (posField cmd 0)
  | .xorw => .xorw (posField cmd 4) (posField cmd 0)
  | .rolw => .rolw (posField cmd 4) (Fin.ofNat 32 (bits cmd 12 8))
  | .qr => .qr (posField cmd 12) (posField cmd 8) (posField cmd 4) (posField cmd 0)
  | .colr => .colr
  | .diagr => .diagr
  | .dblr => .dblr
  | .mix => .mix
  | .init => .init
  | .ffwd => .ffwd
  | .ser => .ser
  | .block => .block
  | .lds => .lds (posField cmd 0) cmdData
  | .rds => .rds (posField cmd 0)
  | .rdw => .rdw (posField cmd 0)
  | .rdkb => .rdkb (Fin.ofNat 64 (bits cmd 5 0))
  | .rdkw => .rdkw (posField cmd 0)
  | .rdst => .rdst

/-- The two kinds of illegal command word (R65). -/
inductive DecodeError where
  /-- Kind (a): `OPC` is not one of the 18 opcodes. -/
  | illegalOpcode
  /-- Kind (b): `OPC` is one of the 18 but `RSV` or a reserved bit of `ARG` is 1. -/
  | reservedNonzero
  deriving DecidableEq, Repr

/-- Steps 2 and 3 of the decode order (R70): total on every command word and data operand, kind (a) tested before kind
(b). Only `LDS` uses the data operand (R60). -/
def decode (cmd cmdData : Word) : Except DecodeError Instr :=
  match Opcode.ofCode? (bits cmd 31 24) with
  | none => .error .illegalOpcode
  | some o => if o.reservedClear cmd then .ok (o.assemble cmd cmdData) else .error .reservedNonzero

/-- A command as it stands on the command port: the command word and the data operand (R60). -/
structure CommandWords where
  cmd : Word
  cmdData : Word
  deriving DecidableEq, Repr

/-- The opcode of a command. -/
def Instr.opcode : Instr → Opcode
  | .addw _ _ => .addw
  | .xorw _ _ => .xorw
  | .rolw _ _ => .rolw
  | .qr _ _ _ _ => .qr
  | .colr => .colr
  | .diagr => .diagr
  | .dblr => .dblr
  | .mix => .mix
  | .init => .init
  | .ffwd => .ffwd
  | .ser => .ser
  | .block => .block
  | .lds _ _ => .lds
  | .rds _ => .rds
  | .rdw _ => .rdw
  | .rdkb _ => .rdkb
  | .rdkw _ => .rdkw
  | .rdst => .rdst

/-- The operand field `ARG` of a command, by its format (R62), reserved bits 0. -/
def Instr.arg : Instr → Nat
  | .addw pd ps | .xorw pd ps => 16 * pd.val + ps.val
  | .rolw pd n => 256 * n.val + 16 * pd.val
  | .qr a b c d => 4096 * a.val + 256 * b.val + 16 * c.val + d.val
  | .lds i _ | .rds i | .rdw i | .rdkw i => i.val
  | .rdkb j => j.val
  | .colr | .diagr | .dblr | .mix | .init | .ffwd | .ser | .block | .rdst => 0

/-- The data operand of a command: the value of `LDS`, and 0 for a command that ignores it (R60). -/
def Instr.data : Instr → Word
  | .lds _ v => v
  | .addw _ _ | .xorw _ _ | .rolw _ _ | .qr _ _ _ _ | .colr | .diagr | .dblr | .mix | .init | .ffwd
  | .ser | .block | .rds _ | .rdw _ | .rdkb _ | .rdkw _ | .rdst => 0

/-- The words of a command: `OPC` in bits 31:24, `RSV` = 0 in bits 23:16, `ARG` in bits 15:0 (R61). -/
def encode (i : Instr) : CommandWords :=
  { cmd := BitVec.ofNat 32 (2 ^ 24 * i.opcode.code + i.arg), cmdData := i.data }

/-- The instruction the decoder reads from an instruction of the opcode table whose bits are w: bits 31..0 of w are the
command word, the bits above it the data operand, 0 where w has none. -/
def decodeTableWord (nbits w : Nat) : Option Instr :=
  match decode (BitVec.ofNat 32 (w % 2 ^ nbits)) (BitVec.ofNat 32 (w % 2 ^ nbits / 2 ^ 32)) with
  | .ok i => some i
  | .error _ => none

end Sys2Proof
end

