-- ==== Sys2Proof/Machine/State.lean ====
section
/-! DEFINITION. The state of the CORE (10_state.md), its reset values (R31), the five fault causes (60_exceptions.md
R201), the responses and observer events, and the two kinds of stop the interface asks for. -/

namespace Sys2Proof.Machine

/-- The five synchronous fault causes (R201). A fault is a refused command that is recorded in `ERR` and `ERRCODE`; it
is a next state of the machine, not a stop. -/
inductive Cause where
  /-- Code 1, `ILLEGAL_OPCODE`. -/
  | illegalOpcode
  /-- Code 2, `RESERVED_NONZERO`. -/
  | reservedNonzero
  /-- Code 3, `QR_POSITIONS_NOT_DISTINCT`. -/
  | qrPositionsNotDistinct
  /-- Code 4, `ROT_AMOUNT_ZERO`. -/
  | rotAmountZero
  /-- Code 5, `KEYSTREAM_NOT_VALID`. -/
  | keystreamNotValid
  deriving DecidableEq, Repr

/-- What `ERRCODE` holds: one of six values (R27; U4 asks for a six-valued type). -/
inductive ErrCode where
  /-- Code 0: no fault since reset. -/
  | noFault
  /-- Codes 1 to 5: the first fault since reset. -/
  | cause (c : Cause)
  deriving DecidableEq, Repr

/-- A pass is a column round or a diagonal round (R12). -/
inductive PassKind where
  | column
  | diagonal
  deriving DecidableEq, Repr

/-- An observer event (R118): the pass index, the kind of pass, and all 16 words of `W` right after the pass. -/
structure Event where
  idx : BitVec 5
  kind : PassKind
  snapshot : Words16
  deriving DecidableEq, Repr

/-- A response (R244): `rsp_data` and `rsp_err`. -/
structure Response where
  data : Word
  err : Bool
  deriving DecidableEq, Repr

/-- What the CORE gives out, in order: observer events and responses (R50). -/
inductive Output where
  | event (e : Event)
  | response (r : Response)
  deriving DecidableEq, Repr

/-- What the host presents: a command on the command port (R60, R244), or the reset input (R230, R231). -/
inductive HostInput where
  | command (cmd cmdData : Word)
  | reset
  deriving DecidableEq, Repr

/-- The state tuple `(S, W, KB, KVALID, ERR, ERRCODE)` of 10_state.md section 1, with the two lists that stand for the
outside of the CORE: what the host has still to present and what the CORE has given out (R29: inputs and outputs of the
spec's `step`; log entries 1 and 2). -/
structure State where
  S : Words16
  W : Words16
  KB : Block64
  KVALID : Bool
  ERR : Bool
  ERRCODE : ErrCode
  inputs : List HostInput
  outputs : List Output
  deriving DecidableEq, Repr

/-- The state right after reset: everything 0 (R31), nothing presented yet and nothing given out. -/
def State.reset : State :=
  { S := Vector.replicate 16 0
    W := Vector.replicate 16 0
    KB := Vector.replicate 64 0
    KVALID := false
    ERR := false
    ERRCODE := .noFault
    inputs := []
    outputs := [] }

/-- Why the machine could stop with a fault. It has no constructor: the spec gives every command, every command word
and every state a next state (a fault of the CORE is entered by R202 and the CORE goes on, locked out, by R203), so
nothing raises one, and the model is neither safer nor less safe for it. -/
inductive Fault where
  deriving DecidableEq, Repr

/-- Why the machine could give no meaning. -/
inductive Refusal where
  /-- Raised by no arm of `exec`: every command of the opcode table has its meaning. Safe: a stop proves nothing. -/
  | notModelled (mnemonic : String)
  deriving DecidableEq, Repr

/-- What a command answers. -/
abbrev Result := Host.Outcome State Fault Refusal

end Sys2Proof.Machine
end

