-- ==== Sys2Proof/Machine/Flags.lean ====
section
/-! DEFINITION. The flags and the status word (10_state.md R25 to R27). No arithmetic command computes a flag: the adder
has no carry or overflow (R25, R80, R84). -/

namespace Sys2Proof.Machine

/-- The cause codes 1 to 5 (R201). -/
def Cause.code : Cause → BitVec 4
  | .illegalOpcode => 1
  | .reservedNonzero => 2
  | .qrPositionsNotDistinct => 3
  | .rotAmountZero => 4
  | .keystreamNotValid => 5

/-- `ERRCODE` as four bits: 0 when no fault has been recorded (R27). -/
def ErrCode.code : ErrCode → BitVec 4
  | .noFault => 0
  | .cause c => c.code

/-- The status word `zext_32({ERRCODE, 0b00, ERR, KVALID})` (R27). -/
def statusWord (s : State) : Word :=
  (s.ERRCODE.code ++ 0#2 ++ BitVec.ofBool s.ERR ++ BitVec.ofBool s.KVALID).zeroExtend 32

/-- The cause code of an illegal command word (R65). -/
def causeOf : DecodeError → Cause
  | .illegalOpcode => .illegalOpcode
  | .reservedNonzero => .reservedNonzero

end Sys2Proof.Machine
end

