-- ==== Sys2Proof/Machine/Operands.lean ====
section
/-! DEFINITION. The operand forms: a direct index in the command word and nothing else (44_state_access.md R156), and
the fixed little-endian byte order between words and bytes (20_memory.md R42 to R45). -/

namespace Sys2Proof.Machine

/-- Byte k of a word: bits `8*k+7 : 8*k` (R42). -/
def byteOf (w : Word) (k : Nat) : Byte := w.extractLsb' (8 * k) 8

/-- `LE32(b0, b1, b2, b3) = b0 + 2^8 * b1 + 2^16 * b2 + 2^24 * b3` (R43). -/
def le32 (b0 b1 b2 b3 : Byte) : Word :=
  BitVec.ofNat 32 (b0.toNat + 2 ^ 8 * b1.toNat + 2 ^ 16 * b2.toNat + 2 ^ 24 * b3.toNat)

/-- `S[i]` as an operand (R9). -/
def State.readS (s : State) (i : Pos) : Word := s.S[i]

/-- `W[i]` as an operand (R9). -/
def State.readW (s : State) (i : Pos) : Word := s.W[i]

/-- `zext_32(KB[j])` (R153): a byte read is zero-extended, never sign-extended (R156). -/
def State.readKB (s : State) (j : ByteIdx) : Word := s.KB[j].zeroExtend 32

/-- The word view of the buffer, `LE32(KB[4*i], KB[4*i+1], KB[4*i+2], KB[4*i+3])` (R44). -/
def State.readKW (s : State) (i : Pos) : Word :=
  le32 s.KB[4 * i.val] s.KB[4 * i.val + 1] s.KB[4 * i.val + 2] s.KB[4 * i.val + 3]

end Sys2Proof.Machine
end

