-- ==== Sys2Proof/Machine/Ops.lean ====
section
/-! DEFINITION. The named operations over the state: writes, responses, observer events, taking a fault
(60_exceptions.md R202), lockout (R203) and the only way back, reset (R206, 70_reset_and_hazards.md R230). -/

namespace Sys2Proof.Machine

/-- `S[i] <- v` (R9). -/
def State.writeS (s : State) (i : Pos) (v : Word) : State := { s with S := s.S.set i v }

/-- `W[i] <- v` (R9). -/
def State.writeW (s : State) (i : Pos) (v : Word) : State := { s with W := s.W.set i v }

/-- `W <- w`, all 16 words at once. -/
def State.setW (s : State) (w : Words16) : State := { s with W := w }

/-- `KB <- k; KVALID <- 1`: all 64 bytes at once (R24, R25). -/
def State.setKB (s : State) (k : Block64) : State := { s with KB := k, KVALID := true }

/-- `emit`: append observer events (R10, R118). -/
def State.emit (s : State) (es : List Event) : State := { s with outputs := s.outputs ++ es.map .event }

/-- `respond(v)`: the response of a command that runs, with `rsp_err` = 0 (R10). A command without `respond` responds
with 0. -/
def State.respond (s : State) (v : Word) : State :=
  { s with outputs := s.outputs ++ [.response { data := v, err := false }] }

/-- The response of a refused command: data 0 with the error mark (R202, R203). Nothing else changes. -/
def State.refuse (s : State) : State :=
  { s with outputs := s.outputs ++ [.response { data := 0, err := true }] }

/-- `raise Fault(c)` (R202): `ERR <- 1`, `ERRCODE <- code`, nothing else of the state, no event, and a refusing
response. While `ERR` = 1 the command is refused with no change at all, so `ERRCODE` keeps the first code (R203). -/
def raiseFault (c : Cause) (s : State) : State :=
  if s.ERR then s.refuse else { s with ERR := true, ERRCODE := .cause c }.refuse

/-- Every command but `RDST` reads `ERR` first (R26; R70 step 1): with `ERR` = 1 it is refused (R203), else k says what
it does. -/
def ifUnlocked (s : State) (k : State → State) : Result := .next (if s.ERR then s.refuse else k s)

/-- Reset (R230, R231): every piece of state to its reset value, whatever the state was. What the host has still to
present and what it has already been given are outside the CORE. There is no other return from a fault (R206). -/
def State.applyReset (s : State) : State := { State.reset with inputs := s.inputs, outputs := s.outputs }

end Sys2Proof.Machine
end

