-- ==== Sys2Proof/Machine/WordArithmetic.lean ====
section
/-! DEFINITION. The word functions and combinational blocks of 40_word_arithmetic.md (R80 to R86) and the commands
`ADDW`, `XORW`, `ROLW` (R87 to R89). -/

namespace Sys2Proof.Machine

/-- `ADD32(a, b) = (a + b) mod 2^32` (R80). The carry out is recorded nowhere. -/
def add32 (a b : Word) : Word := BitVec.ofNat 32 (a.toNat + b.toNat)

/-- `XOR32(a, b)`, bitwise (R81). -/
def xor32 (a b : Word) : Word := a ^^^ b

/-- `ROTL32(x, n) = ((x << n) | (x >> (32 - n))) mod 2^32`, for 0 < n < 32 (R82, R83). -/
def rotl32 (x : Word) (n : RotAmount) : Word :=
  BitVec.ofNat 32 ((x.toNat <<< n.val.val) ||| (x.toNat >>> (32 - n.val.val)))

/-- The block `add32`: inputs `a` and `b`, output `s` (R85). -/
def add32Block (a b : Word) : Word := add32 a b

/-- The block `rotl32`: inputs `x` and the 5-bit `n`, output `y`; any value at n = 0 (R86, U1). -/
def rotl32Block (x : Word) (n : BitVec 5) : Word :=
  if h : n.toFin ≠ 0 then rotl32 x ⟨n.toFin, h⟩ else Config.rotl32AtZero x

/-- `ADDW pd, ps` (R87). -/
def execAddw (pd ps : Pos) (s : State) : Result :=
  ifUnlocked s fun s => (s.writeW pd (add32 (s.readW pd) (s.readW ps))).respond 0

/-- `XORW pd, ps` (R88). -/
def execXorw (pd ps : Pos) (s : State) : Result :=
  ifUnlocked s fun s => (s.writeW pd (xor32 (s.readW pd) (s.readW ps))).respond 0

/-- `ROLW pd, n` (R89): n = 0 faults with code 4. -/
def execRolw (pd : Pos) (n : Fin 32) (s : State) : Result :=
  ifUnlocked s fun s =>
    if h : n ≠ 0 then (s.writeW pd (rotl32 (s.readW pd) ⟨n, h⟩)).respond 0
    else raiseFault .rotAmountZero s

end Sys2Proof.Machine
end

