-- ==== Sys2Proof/Machine/QuarterRound.lean ====
section
/-! DEFINITION. The quarter round on four words and on a state, and the command `QR` (41_quarter_round.md). -/

namespace Sys2Proof.Machine

/-- The rotation constants 16, 12, 8, 7 (R101), wired into the quarter round. -/
def rot16 : RotAmount := ⟨16, by decide⟩
def rot12 : RotAmount := ⟨12, by decide⟩
def rot8 : RotAmount := ⟨8, by decide⟩
def rot7 : RotAmount := ⟨7, by decide⟩

/-- The four words of a quarter round, in the roles a, b, c, d of R100. -/
structure Lane where
  a : Word
  b : Word
  c : Word
  d : Word
  deriving DecidableEq, Repr

/-- `QRF(a, b, c, d)`: the twelve operations in their order, named as R100 names the intermediate values. -/
def qrf (x : Lane) : Lane :=
  let a1 := add32 x.a x.b
  let d1 := xor32 x.d a1
  let d2 := rotl32 d1 rot16
  let c1 := add32 x.c d2
  let b1 := xor32 x.b c1
  let b2 := rotl32 b1 rot12
  let a2 := add32 a1 b2
  let d3 := xor32 d2 a2
  let d4 := rotl32 d3 rot8
  let c2 := add32 c1 d4
  let b3 := xor32 b2 c2
  let b4 := rotl32 b3 rot7
  { a := a2, b := b4, c := c2, d := d4 }

/-- Four distinct word positions, in the roles of R100 (R102, R103: distinctness is a precondition of `QRS`). -/
structure Quad where
  a : Pos
  b : Pos
  c : Pos
  d : Pos
  distinct : PositionsDistinct a b c d
  deriving DecidableEq, Repr

/-- The four words of a state at four positions. -/
def readLane (st : Words16) (q : Quad) : Lane := { a := st[q.a], b := st[q.b], c := st[q.c], d := st[q.d] }

/-- Write four words back at four positions. -/
def writeLane (st : Words16) (q : Quad) (x : Lane) : Words16 :=
  (((st.set q.a x.a).set q.b x.b).set q.c x.c).set q.d x.d

/-- `QRS(st, a, b, c, d)` (R102). -/
def qrs (st : Words16) (q : Quad) : Words16 := writeLane st q (qrf (readLane st q))

/-- The block `chacha20_quarter_round`: four inputs, four outputs (R104). -/
def quarterRoundBlock (aIn bIn cIn dIn : Word) : Lane := qrf { a := aIn, b := bIn, c := cIn, d := dIn }

/-- `QR a, b, c, d` (R105): two equal positions fault with code 3. -/
def execQr (a b c d : Pos) (s : State) : Result :=
  ifUnlocked s fun s =>
    if h : PositionsDistinct a b c d then (s.setW (qrs s.W ⟨a, b, c, d, h⟩)).respond 0
    else raiseFault .qrPositionsNotDistinct s

end Sys2Proof.Machine
end

