-- ==== Sys2Proof/Machine/Mixer.lean ====
section
/-! DEFINITION. The state mixer: position groups, passes, the 20-pass schedule, the observer events, and the commands
`COLR`, `DIAGR`, `DBLR`, `MIX` (42_state_mixer.md). -/

namespace Sys2Proof.Machine

/-- The column groups `COL[0..3]`, in the spec's order (R110). -/
def columnGroups : List Quad :=
  [⟨0, 4, 8, 12, by decide⟩, ⟨1, 5, 9, 13, by decide⟩, ⟨2, 6, 10, 14, by decide⟩, ⟨3, 7, 11, 15, by decide⟩]

/-- The diagonal groups `DIAG[0..3]`, in the spec's order (R111). -/
def diagonalGroups : List Quad :=
  [⟨0, 5, 10, 15, by decide⟩, ⟨1, 6, 11, 12, by decide⟩, ⟨2, 7, 8, 13, by decide⟩, ⟨3, 4, 9, 14, by decide⟩]

/-- The groups of a pass. -/
def PassKind.groups : PassKind → List Quad
  | .column => columnGroups
  | .diagonal => diagonalGroups

/-- `COLROUND` (R112). -/
def colRound (st : Words16) : Words16 := columnGroups.foldl qrs st

/-- `DIAGROUND` (R113). -/
def diagRound (st : Words16) : Words16 := diagonalGroups.foldl qrs st

/-- `DOUBLEROUND(st) = DIAGROUND(COLROUND(st))` (R115). -/
def doubleRound (st : Words16) : Words16 := diagRound (colRound st)

/-- `MIXF(st) = DOUBLEROUND^10(st)` (R116). -/
def mixF (st : Words16) : Words16 := doubleRound^[10] st

/-- One pass of either kind. -/
def runPass : PassKind → Words16 → Words16
  | .column => colRound
  | .diagonal => diagRound

/-- The mixer's run of a list of passes from pass index `pidx` (R28, R119): after each pass one event that carries the
index the pass started with, then the index goes up by 1. The final working state and the events, in order. -/
def runPasses : List PassKind → BitVec 5 → Words16 → Words16 × List Event
  | [], _, w => (w, [])
  | k :: ks, pidx, w =>
    let w' := runPass k w
    let rest := runPasses ks (pidx + 1) w'
    (rest.1, { idx := pidx, kind := k, snapshot := w' } :: rest.2)

/-- The passes of `MIX` and `BLOCK`: column, diagonal, ten times over (R119). -/
def mixPasses : List PassKind := (List.replicate 10 [PassKind.column, PassKind.diagonal]).flatten

/-- A pass command's work on the state: `PIDX` starts at 0, `W` is mixed in place, the events are emitted (R119). -/
def State.pass (s : State) (ks : List PassKind) : State :=
  (s.setW (runPasses ks 0 s.W).1).emit (runPasses ks 0 s.W).2

/-- Use quarter-round units on several groups at once: each unit reads its four words from the state before, and the
results are written back to the same positions (R124). -/
def useUnits (st : Words16) (gs : List Quad) : Words16 :=
  gs.foldl (fun acc q => writeLane acc q (qrf (readLane st q))) st

/-- The uses that `N_QR` units make of a pass's four groups: 4 / `N_QR` uses (R124). -/
def unitUses : Config.NQr → PassKind → List (List Quad)
  | .one, k => k.groups.map fun q => [q]
  | .two, k => [k.groups.take 2, k.groups.drop 2]
  | .four, k => [k.groups]

/-- A pass as a mixer with `N_QR` quarter-round units runs it (R124). -/
def passWithUnits (n : Config.NQr) (k : PassKind) (st : Words16) : Words16 := (unitUses n k).foldl useUnits st

/-- `COLR` (R120). -/
def execColr (s : State) : Result := ifUnlocked s fun s => (s.pass [.column]).respond 0

/-- `DIAGR` (R121). -/
def execDiagr (s : State) : Result := ifUnlocked s fun s => (s.pass [.diagonal]).respond 0

/-- `DBLR` (R122). -/
def execDblr (s : State) : Result := ifUnlocked s fun s => (s.pass [.column, .diagonal]).respond 0

/-- `MIX` (R123). -/
def execMix (s : State) : Result := ifUnlocked s fun s => (s.pass mixPasses).respond 0

end Sys2Proof.Machine
end

