-- ==== Sys2Proof/Machine/BlockGenerator.lean ====
section
/-! DEFINITION. The block generator: copy, feed-forward, serialization, and the commands `INIT`, `FFWD`, `SER`, `BLOCK`
(43_block_generator.md). -/

namespace Sys2Proof.Machine

/-- `FEEDFWD(mixed, orig)`: word-wise addition (R131). -/
def feedFwd (mixed orig : Words16) : Words16 := Vector.ofFn fun i => add32 mixed[i] orig[i]

/-- `SERIALIZE(st)`: byte `4*i + k` is bits `8*k+7 : 8*k` of word i (R133, R42). -/
def serialize (st : Words16) : Block64 := Vector.ofFn fun j => byteOf st[j.val / 4] (j.val % 4)

/-- `BLOCKF(init) = SERIALIZE(FEEDFWD(MIXF(init), init))` (R134). -/
def blockF (init : Words16) : Block64 := serialize (feedFwd (mixF init) init)

/-- Step 1: `W <- S` (R130). -/
def State.copyS (s : State) : State := s.setW s.S

/-- Step 3: `W <- FEEDFWD(W, S)` (R131, R132). -/
def State.feedForward (s : State) : State := s.setW (feedFwd s.W s.S)

/-- Step 4: `KB <- SERIALIZE(W); KVALID <- 1` (R138). -/
def State.serializeW (s : State) : State := s.setKB (serialize s.W)

/-- `INIT` (R136). -/
def execInit (s : State) : Result := ifUnlocked s fun s => s.copyS.respond 0

/-- `FFWD` (R137). -/
def execFfwd (s : State) : Result := ifUnlocked s fun s => s.feedForward.respond 0

/-- `SER` (R138). -/
def execSer (s : State) : Result := ifUnlocked s fun s => s.serializeW.respond 0

/-- `BLOCK` (R139): the four steps as one command. -/
def execBlock (s : State) : Result :=
  ifUnlocked s fun s => ((s.copyS.pass mixPasses).feedForward.serializeW).respond 0

end Sys2Proof.Machine
end

