-- ==== Sys2Proof/Machine/StateAccess.lean ====
section
/-! DEFINITION. Host access to state: `LDS`, `RDS`, `RDW`, `RDKB`, `RDKW`, `RDST` (44_state_access.md). -/

namespace Sys2Proof.Machine

/-- A read of the keystream buffer (R153, R154): fault code 5 when no block has been serialized since reset. -/
def State.respondKey (s : State) (v : Word) : State :=
  if s.KVALID then s.respond v else raiseFault .keystreamNotValid s

/-- `LDS i, v` (R150). -/
def execLds (i : Pos) (v : Word) (s : State) : Result := ifUnlocked s fun s => (s.writeS i v).respond 0

/-- `RDS i` (R151). -/
def execRds (i : Pos) (s : State) : Result := ifUnlocked s fun s => s.respond (s.readS i)

/-- `RDW i` (R152). -/
def execRdw (i : Pos) (s : State) : Result := ifUnlocked s fun s => s.respond (s.readW i)

/-- `RDKB j` (R153). -/
def execRdkb (j : ByteIdx) (s : State) : Result := ifUnlocked s fun s => s.respondKey (s.readKB j)

/-- `RDKW i` (R154). -/
def execRdkw (i : Pos) (s : State) : Result := ifUnlocked s fun s => s.respondKey (s.readKW i)

/-- `RDST` (R155): the one command that runs while `ERR` = 1. -/
def execRdst (s : State) : Result := .next (s.respond (statusWord s))

end Sys2Proof.Machine
end

