-- ==== Sys2Proof/Machine/Dispatch.lean ====
section
/-! DEFINITION. One arm per command: its meaning. -/

namespace Sys2Proof.Machine

def exec (i : Instr) (s : State) : Host.Outcome State Fault Refusal :=
  match i with
  | .addw pd ps => Sys2Proof.Machine.execAddw pd ps s
  | .xorw pd ps => Sys2Proof.Machine.execXorw pd ps s
  | .rolw pd n => Sys2Proof.Machine.execRolw pd n s
  | .qr a b c d => Sys2Proof.Machine.execQr a b c d s
  | .colr => Sys2Proof.Machine.execColr s
  | .diagr => Sys2Proof.Machine.execDiagr s
  | .dblr => Sys2Proof.Machine.execDblr s
  | .mix => Sys2Proof.Machine.execMix s
  | .init => Sys2Proof.Machine.execInit s
  | .ffwd => Sys2Proof.Machine.execFfwd s
  | .ser => Sys2Proof.Machine.execSer s
  | .block => Sys2Proof.Machine.execBlock s
  | .lds j v => Sys2Proof.Machine.execLds j v s
  | .rds j => Sys2Proof.Machine.execRds j s
  | .rdw j => Sys2Proof.Machine.execRdw j s
  | .rdkb j => Sys2Proof.Machine.execRdkb j s
  | .rdkw j => Sys2Proof.Machine.execRdkw j s
  | .rdst => Sys2Proof.Machine.execRdst s

end Sys2Proof.Machine
end

