-- ==== Sys2Proof/Machine/Fetch.lean ====
section
/-! DEFINITION. Accepting the next command: there is no instruction memory, commands arrive one at a time from the host
(10_state.md R28), are decoded in the fixed order of 30_encoding.md R70, and are run atomically (20_memory.md R50). -/

namespace Sys2Proof.Machine

/-- What the CORE makes of the next thing the host presents. The state is the one with that thing taken off `inputs`. -/
inductive Fetched where
  /-- Nothing is presented. -/
  | idle
  /-- The reset input (R230). -/
  | reset (t : State)
  /-- R70 step 1: `ERR` = 1 and the opcode is not that of `RDST`. -/
  | lockedOut (t : State)
  /-- R70 steps 2 and 3: an illegal command word. -/
  | illegal (c : Cause) (t : State)
  /-- A command word that spells a command (R70 steps 4 and 5 follow). -/
  | run (i : Instr) (t : State)
  deriving DecidableEq, Repr

/-- Steps 1 to 3 of the decode order (R70) on an accepted command. -/
def accept (cmd cmdData : Word) (t : State) : Fetched :=
  if t.ERR && bits cmd 31 24 != Opcode.rdst.code then .lockedOut t
  else
    match decode cmd cmdData with
    | .error e => .illegal (causeOf e) t
    | .ok i => .run i t

/-- Take the next thing the host presents, in the order it presents them (R50). -/
def fetch (s : State) : Fetched :=
  match s.inputs with
  | [] => .idle
  | .reset :: rest => .reset { s with inputs := rest }
  | .command cmd cmdData :: rest => accept cmd cmdData { s with inputs := rest }

/-- The host presents one more thing, before all it has still to present. -/
def State.present (s : State) (x : HostInput) : State := { s with inputs := x :: s.inputs }

end Sys2Proof.Machine
end

