-- ==== Sys2Proof/Machine/Step.lean ====
section
/-! DEFINITION. One step of the machine: one accepted command, or one reset, as a whole (00_scope.md R11). -/

namespace Sys2Proof.Machine

/-- One step. With nothing presented the CORE holds its state (60_exceptions.md R214). -/
def step (s : State) : Host.Outcome State Fault Refusal :=
  match fetch s with
  | .idle => .next s
  | .reset t => .next t.applyReset
  | .lockedOut t => .next t.refuse
  | .illegal c t => .next (raiseFault c t)
  | .run i t => exec i t

/-- The host presents one instruction of the opcode table as the next command: bits 31..0 of w are the command word,
the bits above it the data operand (log entry 1). -/
def State.withFetchWord (s : State) (nbits w : Nat) : State :=
  s.present (.command (BitVec.ofNat 32 (w % 2 ^ nbits)) (BitVec.ofNat 32 (w % 2 ^ nbits / 2 ^ 32)))

end Sys2Proof.Machine
end

