-- ==== Sys2Proof/Machine/Assembler.lean ====
section
/-! DEFINITION. The assembler syntax and the one pseudo-instruction (30_encoding.md R68, R69). -/

namespace Sys2Proof.Machine

/-- The mnemonics of R63. -/
def mnemonic : Opcode → String
  | .addw => "ADDW"
  | .xorw => "XORW"
  | .rolw => "ROLW"
  | .qr => "QR"
  | .colr => "COLR"
  | .diagr => "DIAGR"
  | .dblr => "DBLR"
  | .mix => "MIX"
  | .init => "INIT"
  | .ffwd => "FFWD"
  | .ser => "SER"
  | .block => "BLOCK"
  | .lds => "LDS"
  | .rds => "RDS"
  | .rdw => "RDW"
  | .rdkb => "RDKB"
  | .rdkw => "RDKW"
  | .rdst => "RDST"

/-- A word in hexadecimal, written with 8 digits (R8). -/
def hexText (v : Word) : String :=
  "0x" ++ String.ofList ((List.range 8).map fun k => Nat.digitChar (v.toNat / 16 ^ (7 - k) % 16))

/-- The operands in the order of R63's mnemonic column: positions, n and j in decimal, the data operand of `LDS` last
and in hexadecimal (R68). -/
def operandTexts : Instr → List String
  | .addw pd ps | .xorw pd ps => [pd.val.repr, ps.val.repr]
  | .rolw pd n => [pd.val.repr, n.val.repr]
  | .qr a b c d => [a.val.repr, b.val.repr, c.val.repr, d.val.repr]
  | .lds i v => [i.val.repr, hexText v]
  | .rds i | .rdw i | .rdkw i => [i.val.repr]
  | .rdkb j => [j.val.repr]
  | .colr | .diagr | .dblr | .mix | .init | .ffwd | .ser | .block | .rdst => []

/-- One command as a line of assembler text: the mnemonic, then its operands separated by commas (R68). -/
def assembly (i : Instr) : String :=
  match operandTexts i with
  | [] => mnemonic i.opcode
  | ops => mnemonic i.opcode ++ " " ++ ", ".intercalate ops

/-- `LDSTATE w0, ..., w15`: sixteen `LDS` commands, positions 0 to 15 in that order (R69). -/
def ldstate (st : Words16) : List Instr := (List.finRange 16).map fun i => .lds i st[i]

end Sys2Proof.Machine
end

