-- ==== Sys2Proof/Machine/HostContract.lean ====
section
/-! DEFINITION. The host's contract, ordinary functions beside the machine (45_host_contract.md): `init_state`,
`xor_stream` whole and streamed, the counter limit, the host errors, and the command sequence that makes the CORE
compute a block. Nothing of the machine depends on this file. -/

namespace Sys2Proof.Machine

/-- The host's errors (R182); names only, no codes. -/
inductive HostError where
  | invalidKeyLength
  | invalidNonceLength
  | counterOverflow
  deriving DecidableEq, Repr

/-- The ASCII codes of "expand 32-byte k" (R172; the codes are general knowledge, G1). -/
def sigma : List Byte :=
  [0x65, 0x78, 0x70, 0x61, 0x6e, 0x64, 0x20, 0x33, 0x32, 0x2d, 0x62, 0x79, 0x74, 0x65, 0x20, 0x6b]

/-- Word number m of a byte string (R173). -/
def wordAt (x : List Byte) (m : Nat) : Word :=
  le32 (x.getD (4 * m) 0) (x.getD (4 * m + 1) 0) (x.getD (4 * m + 2) 0) (x.getD (4 * m + 3) 0)

/-- The 16 words of `init_state` for a key of 32 and a nonce of 12 bytes (R174). -/
def initWords (key : List Byte) (counter : Word) (nonce : List Byte) : Words16 :=
  Vector.ofFn fun i =>
    if i.val < 4 then wordAt sigma i.val
    else if i.val < 12 then wordAt key (i.val - 4)
    else if i.val = 12 then counter
    else wordAt nonce (i.val - 13)

/-- The length errors that apply to a key and a nonce (R171, R182). -/
def lengthErrors (key nonce : List Byte) : List HostError :=
  (if key.length ≠ 32 then [.invalidKeyLength] else []) ++ (if nonce.length ≠ 12 then [.invalidNonceLength] else [])

/-- One of the errors that apply, the n-th counted round and round; n is a free value (U7). -/
def pickError (e : HostError) (es : List HostError) (n : Nat) : HostError :=
  (e :: es).getD (n % (es.length + 1)) e

/-- `init_state(key, counter, nonce)`: the 16 words, or a rejection and no state at all (R174, R183). -/
def initState (key : List Byte) (counter : Word) (nonce : List Byte) : Except HostError Words16 :=
  match lengthErrors key nonce with
  | [] => .ok (initWords key counter nonce)
  | e :: es => .error (pickError e es (Config.initErrorPick key counter nonce))

/-- The number of 64-byte blocks that len bytes need: `ceil(len / 64)` (R187). -/
def blocksNeeded (len : Nat) : Nat := (len + 63) / 64

/-- The errors that apply to a call of `xor_stream` (R182, R187): the counter must never wrap. -/
def streamErrors (key nonce : List Byte) (c0 : Word) (len : Nat) : List HostError :=
  lengthErrors key nonce ++ if c0.toNat + blocksNeeded len > 2 ^ 32 then [.counterOverflow] else []

/-- Block number q of a stream (R176): the block of the counter value `c0 + q`. -/
def streamBlock (key nonce : List Byte) (c0 q : Nat) : Block64 :=
  blockF (initWords key (BitVec.ofNat 32 (c0 + q)) nonce)

/-- Keystream byte p of a stream, `KS[p]` (R177). -/
def keystreamByte (key nonce : List Byte) (c0 p : Nat) : Byte :=
  (streamBlock key nonce c0 (p / 64))[p % 64]'(Nat.mod_lt p (by decide))

/-- `xor_stream(key, nonce, c0, input)` (R177), or a rejection and no output at all (R183). -/
def xorStream (key nonce : List Byte) (c0 : Word) (input : List Byte) : Except HostError (List Byte) :=
  match streamErrors key nonce c0 input.length with
  | [] => .ok (input.mapIdx fun p b => b ^^^ keystreamByte key nonce c0.toNat p)
  | e :: es => .error (pickError e es (Config.streamErrorPick key nonce c0 input))

/-- What the host keeps per stream (R178): the counter value of the next block, and the bytes of the current block it
has not used yet. The counter is an unbounded number and never wraps (R187, 90_conflicts.md C1). -/
structure HostStream where
  key : List Byte
  nonce : List Byte
  counter : Nat
  unused : List Byte
  deriving DecidableEq, Repr

/-- The start of a stream, no block made yet, or a rejection: the two lengths are checked here, once, with the errors of
`xor_stream` on an empty input (R171, R180, R182). That a stream fed in pieces reports a wrong length at its start, with
no output at all, is the model's choice (log entry 11). -/
def HostStream.start (key nonce : List Byte) (c0 : Word) : Except HostError HostStream :=
  match streamErrors key nonce c0 0 with
  | [] => .ok { key := key, nonce := nonce, counter := c0.toNat, unused := [] }
  | e :: es => .error (pickError e es (Config.streamErrorPick key nonce c0 []))

/-- Make the next block: one block of the current counter value, then the counter goes up by 1 (R176). `feed` calls it
only with a counter below `2^32` (R187, 70_reset_and_hazards.md R240). -/
def HostStream.refill (h : HostStream) : HostStream :=
  { h with counter := h.counter + 1, unused := (streamBlock h.key h.nonce h.counter 0).toList }

/-- The stream ready to give a byte: a new block is made only when the current one is exhausted (R178). -/
def HostStream.ready (h : HostStream) : HostStream := if h.unused.isEmpty then h.refill else h

/-- Feed bytes that the stream has room for, in order: the output bytes and the stream after them. -/
def HostStream.feedBytes : HostStream → List Byte → List Byte × HostStream
  | h, [] => ([], h)
  | h, b :: bs =>
    let r := h.ready
    let out := HostStream.feedBytes { r with unused := r.unused.tail } bs
    ((b ^^^ r.unused.headD 0) :: out.1, out.2)

/-- How many new blocks a piece of len bytes takes: those beyond the unused bytes of the current block (R178). -/
def HostStream.newBlocks (h : HostStream) (len : Nat) : Nat := blocksNeeded (len - h.unused.length)

/-- Feed one piece to a stream: the output bytes and the stream after them, or `CounterOverflow` when the piece would
need a block of a counter value that is no longer below `2^32` (R187, R240). That the piece which would cross the limit
fails as a whole, with no output and no block made, while the pieces before it keep their output, is the model's choice
(log entry 11). -/
def HostStream.feed (h : HostStream) (piece : List Byte) : Except HostError (List Byte × HostStream) :=
  if h.counter + h.newBlocks piece.length > 2 ^ 32 then .error .counterOverflow else .ok (h.feedBytes piece)

/-- The commands with which the host has the CORE compute the block of a state: `LDS` in the given order of positions,
then `BLOCK` (R175, R232). -/
def blockCommands (st : Words16) (order : List Pos) : List Instr :=
  (order.map fun i => .lds i st[i]) ++ [.block]

/-- Commands as the host presents them on the command port. -/
def asInputs (is : List Instr) : List HostInput := is.map fun i => .command (encode i).cmd (encode i).cmdData

end Sys2Proof.Machine
end

