-- ==== Sys2Proof/Machine/Pins.lean ====
section
/-! DEFINITION. The clock-level machine: the pins, the handshake, reset and the pass-by-pass run of a command
(70_reset_and_hazards.md R230, R244, R245; 10_state.md R28, R30). It carries the command-level machine of Step.lean on
wires and adds no behaviour to it (00_scope.md R11). -/

namespace Sys2Proof.Machine

/-- The passes a command with this opcode runs when it is executed (42_state_mixer.md R119). -/
def passesOf : Opcode → List PassKind
  | .colr => [.column]
  | .diagr => [.diagonal]
  | .dblr => [.column, .diagonal]
  | .mix | .block => mixPasses
  | .addw | .xorw | .rolw | .qr | .init | .ffwd | .ser | .lds | .rds | .rdw | .rdkb | .rdkw | .rdst => []

/-- How many observer events a command with this `OPC` can have. -/
def passCount (opc : Nat) : Nat :=
  match Opcode.ofCode? opc with
  | some o => (passesOf o).length
  | none => 0

/-- The timing the spec leaves open: `LAT(op)` of 00_scope.md R7, and the cycle, counted from acceptance, in which the
event with a given index is presented. The laws are all that R7 and R245 (c), (d) say of them. Log entry 5. -/
structure Timing where
  lat : Nat → Nat
  obsAt : Nat → Nat → Nat
  lat_pos : ∀ opc, 1 ≤ lat opc
  obs_after_acceptance : ∀ opc, 1 ≤ obsAt opc 0
  obs_increasing : ∀ opc k, obsAt opc k < obsAt opc (k + 1)
  obs_by_response : ∀ opc k, k < passCount opc → obsAt opc k ≤ lat opc

/-- The command in flight (R30): its words, the partly mixed working state, `PIDX` (R28), the passes still to run, and
the cycles since its acceptance. -/
structure Flight where
  cmd : Word
  cmdData : Word
  W : Words16
  pidx : BitVec 5
  todo : List PassKind
  age : Nat
  deriving DecidableEq, Repr

/-- The input pins at a rising edge of `clk` (R244). -/
structure PinIn where
  rst : Bool
  cmdValid : Bool
  cmd : Word
  cmdData : Word
  deriving DecidableEq, Repr

/-- The clock-level state in the cycle after an edge. `rsp` and `obs` are `rsp_valid` = 1 and `obs_valid` = 1 with what
is presented; `resetCycle` says that the edge was a reset edge. -/
structure Clocked where
  core : State
  flight : Option Flight
  cmdReady : Bool
  rsp : Option Response
  obs : Option Event
  resetCycle : Bool
  deriving DecidableEq, Repr

/-- The `OPC` of the command in flight. -/
def Flight.opc (f : Flight) : Nat := bits f.cmd 31 24

/-- What is in flight right after a command is accepted: `PIDX` = 0, and for a command that is executed the passes of
R119, on the working state that the first pass sees (for `BLOCK` the copy of `S`, R139). -/
def startFlight (core : State) (cmd cmdData : Word) : Flight :=
  match accept cmd cmdData core with
  | .run i _ =>
    { cmd := cmd, cmdData := cmdData, W := if i.opcode = .block then core.S else core.W, pidx := 0,
      todo := passesOf i.opcode, age := 0 }
  | .idle | .reset _ | .lockedOut _ | .illegal _ _ =>
    { cmd := cmd, cmdData := cmdData, W := core.W, pidx := 0, todo := [], age := 0 }

/-- One more cycle of the command in flight: in the cycle that `Timing.obsAt` names, the next pass completes and its
event is presented (R118, R245 d). -/
def Flight.advance (T : Timing) (f : Flight) : Flight × Option Event :=
  match f.todo with
  | [] => ({ f with age := f.age + 1 }, none)
  | k :: ks =>
    if f.age + 1 = T.obsAt f.opc f.pidx.toNat then
      ({ f with W := runPass k f.W, pidx := f.pidx + 1, todo := ks, age := f.age + 1 },
        some { idx := f.pidx, kind := k, snapshot := runPass k f.W })
    else ({ f with age := f.age + 1 }, none)

/-- The response among the outputs a command has just given: the last of them (R50 d). -/
def lastResponse (outs : List Output) : Option Response :=
  match outs.getLast? with
  | some (.response r) => some r
  | some (.event _) | none => none

/-- The response cycle (R245 c, e): the flags and the rest of the state change, and the response is presented. The
state is the one the command-level step gives. -/
def Clocked.complete (c : Clocked) (f : Flight) (e : Option Event) : Clocked :=
  match step (c.core.present (.command f.cmd f.cmdData)) with
  | .next t =>
    { core := t, flight := none, cmdReady := false, rsp := lastResponse t.outputs, obs := e, resetCycle := false }
  | .fault _ | .refused _ => c

/-- One rising edge of `clk` (R230, R245): reset first; then the command in flight; then, if none is, acceptance when
`cmd_valid` = 1 and `cmd_ready` = 1. `cmd_ready` is 0 from acceptance until the cycle after the response. -/
def Clocked.edge (T : Timing) (c : Clocked) (i : PinIn) : Clocked :=
  if i.rst then
    { core := c.core.applyReset, flight := none, cmdReady := false, rsp := none, obs := none, resetCycle := true }
  else
    match c.flight with
    | none =>
      if c.cmdReady && i.cmdValid then
        { core := c.core, flight := some (startFlight c.core i.cmd i.cmdData), cmdReady := false, rsp := none,
          obs := none, resetCycle := false }
      else { core := c.core, flight := none, cmdReady := true, rsp := none, obs := none, resetCycle := false }
    | some f =>
      if f.age + 1 = T.lat f.opc then c.complete (f.advance T).1 (f.advance T).2
      else
        { core := c.core, flight := some (f.advance T).1, cmdReady := false, rsp := none, obs := (f.advance T).2,
          resetCycle := false }

/-- The clock-level state after n edges, the k-th of which samples `ins k`. -/
def Clocked.after (T : Timing) (c : Clocked) (ins : Nat → PinIn) : Nat → Clocked
  | 0 => c
  | n + 1 => (Clocked.after T c ins n).edge T (ins n)

/-- The clock-level state right after a reset edge (R230, R31): no command in flight. -/
def Clocked.reset : Clocked :=
  { core := State.reset, flight := none, cmdReady := false, rsp := none, obs := none, resetCycle := true }

/-- `obs_state[511:0]`: word i at bits `32*i+31 : 32*i` (20_memory.md R45). -/
def obsStateBus (w : Words16) : BitVec 512 :=
  BitVec.ofNat 512 (w.toList.foldr (fun x acc => x.toNat + 2 ^ 32 * acc) 0)

/-- `kind` on the pins: 0 for a column pass, 1 for a diagonal pass (R118). -/
def PassKind.bit : PassKind → BitVec 1
  | .column => 0
  | .diagonal => 1

/-- The output pins in one cycle (R244). A pin is none where the spec gives it no value (U6). -/
structure PinOut where
  cmdReady : Bool
  rspValid : Bool
  rspData : Option Word
  rspErr : Option Bool
  kvalid : Option Bool
  err : Option Bool
  obsValid : Bool
  obsIdx : Option (BitVec 5)
  obsKind : Option (BitVec 1)
  obsState : Option (BitVec 512)
  deriving DecidableEq, Repr

/-- The pins of the cycle after an edge. Log entry 7: `kvalid` and `err` have no value in the cycle after a reset edge. -/
def Clocked.pins (c : Clocked) : PinOut :=
  { cmdReady := c.cmdReady
    rspValid := c.rsp.isSome
    rspData := c.rsp.map (·.data)
    rspErr := c.rsp.map (·.err)
    kvalid := if c.resetCycle then none else some c.core.KVALID
    err := if c.resetCycle then none else some c.core.ERR
    obsValid := c.obs.isSome
    obsIdx := c.obs.map (·.idx)
    obsKind := c.obs.map (·.kind.bit)
    obsState := c.obs.map fun e => obsStateBus e.snapshot }

/-- What an observer receives of the events: all of them if one is attached (`OBS_PRESENT`, R7), none if not. The CORE
gives the same events either way (R125). -/
def observed (obsPresent : Bool) (outs : List Output) : List Event :=
  if obsPresent then
    outs.filterMap fun o =>
      match o with
      | .event e => some e
      | .response _ => none
  else []

end Sys2Proof.Machine
end

