-- ==== Sys2Proof/Safety.lean ====
section
/-! DEFINITION. The terms the statements use: legal states, lockout, what a command leaves alone, how it answers, what
taking a fault leaves, and sequences of commands. -/

namespace Sys2Proof.Machine

/-- What every state of a run from reset satisfies: `ERRCODE` is 0 exactly when `ERR` is 0 (10_state.md R26, R27), and
until a block is serialized the keystream buffer keeps its reset contents (R24, R25, R31). -/
structure State.Legal (s : State) : Prop where
  errcode : s.ERR = false ↔ s.ERRCODE = .noFault
  buffer : s.KVALID = false → s.KB = State.reset.KB

/-- The CORE is not locked out (60_exceptions.md R203). -/
abbrev State.Unlocked (s : State) : Prop := s.ERR = false

/-- The state tuple `(S, W, KB, KVALID, ERR, ERRCODE)` of 10_state.md section 1. -/
def State.tuple (s : State) : Words16 × Words16 × Block64 × Bool × Bool × ErrCode :=
  (s.S, s.W, s.KB, s.KVALID, s.ERR, s.ERRCODE)

/-- Everything but `W` and the outputs is as before. -/
def State.KeepsAllButW (s t : State) : Prop :=
  t.S = s.S ∧ t.KB = s.KB ∧ t.KVALID = s.KVALID ∧ t.ERR = s.ERR ∧ t.ERRCODE = s.ERRCODE ∧ t.inputs = s.inputs

/-- Everything but `S` and the outputs is as before. -/
def State.KeepsAllButS (s t : State) : Prop :=
  t.W = s.W ∧ t.KB = s.KB ∧ t.KVALID = s.KVALID ∧ t.ERR = s.ERR ∧ t.ERRCODE = s.ERRCODE ∧ t.inputs = s.inputs

/-- Everything but the outputs is as before. -/
def State.KeepsAll (s t : State) : Prop := t.tuple = s.tuple ∧ t.inputs = s.inputs

/-- From s to t the CORE has given the events es, in order, and then the one response r (20_memory.md R50 d). -/
def State.Answers (s t : State) (es : List Event) (r : Response) : Prop :=
  t.outputs = s.outputs ++ es.map Output.event ++ [Output.response r]

/-- t is s after taking the fault c (60_exceptions.md R202): `ERR` and `ERRCODE` and nothing else, no event, and a
response with data 0 and the error mark. -/
def State.TakesFault (s : State) (c : Cause) (t : State) : Prop :=
  t.ERR = true ∧ t.ERRCODE = .cause c ∧ t.S = s.S ∧ t.W = s.W ∧ t.KB = s.KB ∧ t.KVALID = s.KVALID ∧
    t.inputs = s.inputs ∧ s.Answers t [] { data := 0, err := true }

/-- The kind of pass number p of the schedule: column for even p, diagonal for odd p (42_state_mixer.md R116, R119). -/
def kindOfPass (p : Nat) : PassKind := if p % 2 = 0 then .column else .diagonal

/-- The first m passes of the schedule, pass 0 first: `P_(m-1) ∘ ... ∘ P_0` (R116). -/
def firstPasses (m : Nat) (st : Words16) : Words16 := (List.range m).foldl (fun w p => runPass (kindOfPass p) w) st

/-- The twenty events of `MIX` on a working state (R119). -/
def mixEvents (st : Words16) : List Event :=
  (List.range 20).map fun p => { idx := BitVec.ofNat 5 p, kind := kindOfPass p, snapshot := firstPasses (p + 1) st }

/-- The commands of a list, one after another. -/
def execList : List Instr → State → Result
  | [], s => .next s
  | i :: is, s =>
    match exec i s with
    | .next t => execList is t
    | .fault f => .fault f
    | .refused r => .refused r

/-- `QR a, b, c, d` as twelve arithmetic commands (41_quarter_round.md R106). -/
def twelveCommands (a b c d : Pos) : List Instr :=
  [.addw a b, .xorw d a, .rolw d 16, .addw c d, .xorw b c, .rolw b 12,
    .addw a b, .xorw d a, .rolw d 8, .addw c d, .xorw b c, .rolw b 7]

end Sys2Proof.Machine
end

