-- ==== Sys2Proof/Certificates/Slice0/Obligations.lean ====
section
/-! DEFINITION. The statements for the provers, from the numbered rules of the spec. -/

open Sys2Proof Sys2Proof.Machine

/-- R31: every piece of state after reset. -/
def Obligations.ResetStateIsAllZero : Prop :=
  (∀ i : Pos, State.reset.S[i] = 0) ∧ (∀ i : Pos, State.reset.W[i] = 0) ∧ (∀ j : ByteIdx, State.reset.KB[j] = 0) ∧
    State.reset.KVALID = false ∧ State.reset.ERR = false ∧ State.reset.ERRCODE.code = 0 ∧
    statusWord State.reset = 0x00000000 ∧ Clocked.reset.core = State.reset ∧ Clocked.reset.flight = none

/-- R231: reset is available in every state, locked-out ones too, and leads to the one state `RESET_STATE`, which is the
initial state of every run. -/
def Obligations.ResetLeadsToResetState : Prop :=
  (∀ (s : State) (rest : List HostInput), s.inputs = .reset :: rest →
    ∃ t, step s = .next t ∧ t.tuple = State.reset.tuple) ∧
  State.reset.tuple =
    (Vector.replicate 16 0, Vector.replicate 16 0, Vector.replicate 64 0, false, false, ErrCode.noFault)

/-- R80. -/
def Obligations.Add32IsAdditionModuloTwoPow32 : Prop :=
  (∀ a b : Word, (add32 a b).toNat = (a.toNat + b.toNat) % 2 ^ 32) ∧
  (∀ a b : Word, add32 a b = add32 b a) ∧ (∀ a b c : Word, add32 (add32 a b) c = add32 a (add32 b c)) ∧
  (∀ a : Word, add32 a 0 = a ∧ add32 0 a = a) ∧
  (∀ b : Word, Function.Bijective (fun a => add32 a b)) ∧
  (∀ a b : Word, ((add32 a b).toNat + (2 ^ 32 - b.toNat)) % 2 ^ 32 = a.toNat)

/-- R81. -/
def Obligations.Xor32IsBitwise : Prop :=
  (∀ (a b : Word) (i : Nat), i < 32 → ((xor32 a b).getLsbD i = true ↔ a.getLsbD i ≠ b.getLsbD i)) ∧
  (∀ a b : Word, xor32 a b = xor32 b a) ∧ (∀ a b c : Word, xor32 (xor32 a b) c = xor32 a (xor32 b c)) ∧
  (∀ a : Word, xor32 a 0 = a ∧ xor32 0 a = a ∧ xor32 a a = 0)

/-- R82: the formula, the bit-level form, the concatenation, the disjoint terms (so that the OR may be read as + or ^),
and the inverse. -/
def Obligations.Rotl32MovesEveryBit : Prop :=
  ∀ (x : Word) (n : RotAmount),
    let k := n.val.val
    (rotl32 x n).toNat = ((x.toNat <<< k) ||| (x.toNat >>> (32 - k))) % 2 ^ 32 ∧
    (∀ i : Nat, i < 32 → (rotl32 x n).getLsbD ((i + k) % 32) = x.getLsbD i) ∧
    (rotl32 x n).toNat = bits x (31 - k) 0 * 2 ^ k + bits x 31 (32 - k) ∧
    (x.toNat <<< k) &&& (x.toNat >>> (32 - k)) = 0 ∧
    (rotl32 x n).toNat = ((x.toNat <<< k) + (x.toNat >>> (32 - k))) % 2 ^ 32 ∧
    (rotl32 x n).toNat = ((x.toNat <<< k) ^^^ (x.toNat >>> (32 - k))) % 2 ^ 32 ∧
    (∀ m : RotAmount, m.val.val + k = 32 → rotl32 (rotl32 x n) m = x) ∧
    Function.Bijective (fun y => rotl32 y n)

/-- R87. -/
def Obligations.AddwAddsIntoOneWorkingWord : Prop :=
  ∀ pd ps : Pos,
    (encode (.addw pd ps)).cmd = BitVec.ofNat 32 (0x01000000 + 16 * pd.val + ps.val) ∧
    ∀ s : State, s.Unlocked → ∃ t, exec (.addw pd ps) s = .next t ∧
      t.W[pd].toNat = (s.W[pd].toNat + s.W[ps].toNat) % 2 ^ 32 ∧ (∀ k : Pos, k ≠ pd → t.W[k] = s.W[k]) ∧
      s.KeepsAllButW t ∧ s.Answers t [] { data := 0, err := false }

/-- R88. -/
def Obligations.XorwXorsIntoOneWorkingWord : Prop :=
  ∀ pd ps : Pos,
    (encode (.xorw pd ps)).cmd = BitVec.ofNat 32 (0x02000000 + 16 * pd.val + ps.val) ∧
    ∀ s : State, s.Unlocked → ∃ t, exec (.xorw pd ps) s = .next t ∧
      (∀ i : Nat, i < 32 → t.W[pd].getLsbD i = (s.W[pd].getLsbD i ^^ s.W[ps].getLsbD i)) ∧
      (pd = ps → t.W[pd] = 0) ∧ (∀ k : Pos, k ≠ pd → t.W[k] = s.W[k]) ∧
      s.KeepsAllButW t ∧ s.Answers t [] { data := 0, err := false }

/-- R89: n = 0 takes fault code 4, every n in 1..31 rotates. -/
def Obligations.RolwRotatesOneWorkingWord : Prop :=
  ∀ (pd : Pos) (n : Fin 32),
    (encode (.rolw pd n)).cmd = BitVec.ofNat 32 (0x03000000 + 256 * n.val + 16 * pd.val) ∧
    ∀ s : State, s.Unlocked → ∃ t, exec (.rolw pd n) s = .next t ∧
      (n = 0 → s.TakesFault .rotAmountZero t) ∧
      (∀ h : n ≠ 0, t.W[pd] = rotl32 s.W[pd] ⟨n, h⟩ ∧
        (∀ i : Nat, i < 32 → t.W[pd].getLsbD ((i + n.val) % 32) = s.W[pd].getLsbD i) ∧
        (∀ k : Pos, k ≠ pd → t.W[k] = s.W[k]) ∧ s.KeepsAllButW t ∧ s.Answers t [] { data := 0, err := false })

/-- R107: `QRF` fixes the all-zero quadruple and is a bijection on quadruples of words. -/
def Obligations.QuarterRoundIsBijective : Prop :=
  qrf { a := 0, b := 0, c := 0, d := 0 } = { a := 0, b := 0, c := 0, d := 0 } ∧ Function.Bijective qrf

/-- R102: only the four positions change, they become `QRF` of what they were, and the order of the positions matters. -/
def Obligations.QuarterRoundChangesOnlyItsFourPositions : Prop :=
  (∀ (st : Words16) (q : Quad),
    readLane (qrs st q) q = qrf (readLane st q) ∧
    ∀ k : Pos, k ≠ q.a → k ≠ q.b → k ≠ q.c → k ≠ q.d → (qrs st q)[k] = st[k]) ∧
  ∃ st : Words16, qrs st ⟨0, 4, 8, 12, by decide⟩ ≠ qrs st ⟨4, 0, 8, 12, by decide⟩

/-- R105: distinct positions get a quarter round, any two equal ones take fault code 3. -/
def Obligations.QrRunsOnDistinctPositionsOnly : Prop :=
  ∀ a b c d : Pos,
    (encode (.qr a b c d)).cmd = BitVec.ofNat 32 (0x10000000 + 4096 * a.val + 256 * b.val + 16 * c.val + d.val) ∧
    ∀ s : State, s.Unlocked → ∃ t, exec (.qr a b c d) s = .next t ∧
      (¬ PositionsDistinct a b c d → s.TakesFault .qrPositionsNotDistinct t) ∧
      (PositionsDistinct a b c d →
        ({ a := t.W[a], b := t.W[b], c := t.W[c], d := t.W[d] } : Lane) =
          qrf { a := s.W[a], b := s.W[b], c := s.W[c], d := s.W[d] } ∧
        (∀ k : Pos, k ≠ a → k ≠ b → k ≠ c → k ≠ d → t.W[k] = s.W[k]) ∧
        s.KeepsAllButW t ∧ s.Answers t [] { data := 0, err := false })

/-- R106: the twelve arithmetic commands leave exactly the state that `QR` leaves, and neither emits an event. -/
def Obligations.QrEqualsTwelveArithmeticCommands : Prop :=
  ∀ (a b c d : Pos) (s : State), s.Unlocked → PositionsDistinct a b c d →
    ∃ t u, execList (twelveCommands a b c d) s = .next t ∧ exec (.qr a b c d) s = .next u ∧
      t.tuple = u.tuple ∧ t.inputs = u.inputs ∧
      t.outputs = s.outputs ++ List.replicate 12 (.response { data := 0, err := false }) ∧
      u.outputs = s.outputs ++ [.response { data := 0, err := false }]

/-- R114: the groups of a pass are disjoint and cover all 16 positions, take one position from each row in row order,
and the four quarter rounds give the same state in any order or all at once, each lane seeing only its own words. -/
def Obligations.PassIsOrderIndependent : Prop :=
  ∀ k : PassKind,
    (∀ p : Pos, ∃! q, q ∈ k.groups ∧ (q.a = p ∨ q.b = p ∨ q.c = p ∨ q.d = p)) ∧
    (∀ q ∈ k.groups, q.a.val / 4 = 0 ∧ q.b.val / 4 = 1 ∧ q.c.val / 4 = 2 ∧ q.d.val / 4 = 3) ∧
    (∀ (st : Words16) (gs : List Quad), gs.Perm k.groups → gs.foldl qrs st = runPass k st) ∧
    (∀ st : Words16, useUnits st k.groups = runPass k st) ∧
    (∀ st : Words16, ∀ q ∈ k.groups, readLane (runPass k st) q = qrf (readLane st q))

/-- From R124 and R114: the result of a pass does not depend on how many quarter-round units the mixer has. -/
def Obligations.PassIndependentOfUnitCount : Prop :=
  ∀ (n : Config.NQr) (k : PassKind) (st : Words16), passWithUnits n k st = runPass k st

/-- R116: ten double rounds are the twenty passes P_19 ∘ ... ∘ P_0, column for even p and diagonal for odd p; and so for
every number of double rounds. -/
def Obligations.MixIsTwentyAlternatingPasses : Prop :=
  (∀ (n : Nat) (st : Words16), (fun w => diagRound (colRound w))^[n] st = firstPasses (2 * n) st) ∧
  ∀ st : Words16, mixF st = (fun w => diagRound (colRound w))^[10] st ∧ mixF st = firstPasses 20 st

/-- From R117: the four pass functions are bijections on 16-word states and fix the all-zero state. -/
def Obligations.PassesAreBijective : Prop :=
  Function.Bijective colRound ∧ Function.Bijective diagRound ∧ Function.Bijective doubleRound ∧
    Function.Bijective mixF ∧ (∀ f ∈ [colRound, diagRound, doubleRound, mixF], f (Vector.replicate 16 0) =
      Vector.replicate 16 0) ∧ mixPasses.length = 20

/-- R120 and R121: one pass on `W`, one event with index 0. -/
def Obligations.ColrAndDiagrRunOnePass : Prop :=
  (encode .colr).cmd = 0x20000000 ∧ (encode .diagr).cmd = 0x21000000 ∧
  ∀ s : State, s.Unlocked →
    (∃ t, exec .colr s = .next t ∧ t.W = colRound s.W ∧
      (∀ q ∈ columnGroups, readLane t.W q = qrf (readLane s.W q)) ∧ s.KeepsAllButW t ∧
      s.Answers t [{ idx := 0, kind := .column, snapshot := t.W }] { data := 0, err := false }) ∧
    (∃ t, exec .diagr s = .next t ∧ t.W = diagRound s.W ∧
      (∀ q ∈ diagonalGroups, readLane t.W q = qrf (readLane s.W q)) ∧ s.KeepsAllButW t ∧
      s.Answers t [{ idx := 0, kind := .diagonal, snapshot := t.W }] { data := 0, err := false })

/-- R122: a column pass then a diagonal pass, events (0, 0) and (1, 1); its effect on state is that of `COLR` then
`DIAGR`. -/
def Obligations.DblrRunsOneDoubleRound : Prop :=
  (encode .dblr).cmd = 0x22000000 ∧
  ∀ s : State, s.Unlocked →
    ∃ t, exec .dblr s = .next t ∧ t.W = diagRound (colRound s.W) ∧ s.KeepsAllButW t ∧
      s.Answers t [{ idx := 0, kind := .column, snapshot := colRound s.W },
        { idx := 1, kind := .diagonal, snapshot := t.W }] { data := 0, err := false } ∧
      ∃ u, execList [.colr, .diagr] s = .next u ∧ u.tuple = t.tuple

/-- R123: the full schedule on `W`, twenty events with their indices, kinds and snapshots; its effect on state is that
of ten `DBLR` and of twenty alternating `COLR`, `DIAGR`. -/
def Obligations.MixRunsTheFullSchedule : Prop :=
  (encode .mix).cmd = 0x23000000 ∧
  ∀ s : State, s.Unlocked →
    ∃ t, exec .mix s = .next t ∧ t.W = mixF s.W ∧ s.KeepsAllButW t ∧
      s.Answers t (mixEvents s.W) { data := 0, err := false } ∧
      (∃ u, execList (List.replicate 10 .dblr) s = .next u ∧ u.tuple = t.tuple) ∧
      (∃ u, execList (List.replicate 10 [.colr, .diagr]).flatten s = .next u ∧ u.tuple = t.tuple)

/-- R119's table: the events `(idx, kind)` of every command, for every state that is not locked out; `kind` is
`idx mod 2` in `DBLR`, `MIX` and `BLOCK`, and the commands that are not pass commands emit none. -/
def Obligations.PassScheduleOfEveryCommand : Prop :=
  ∀ (i : Instr) (s : State), s.Unlocked →
    ∃ t es r, exec i s = .next t ∧ s.Answers t es r ∧
      es.map (fun e => (e.idx.toNat, e.kind.bit.toNat)) =
        match i with
        | .colr => [(0, 0)]
        | .diagr => [(0, 1)]
        | .dblr => [(0, 0), (1, 1)]
        | .mix | .block => (List.range 20).map fun p => (p, p % 2)
        | .addw _ _ | .xorw _ _ | .rolw _ _ | .qr _ _ _ _ | .init | .ffwd | .ser | .lds _ _ | .rds _ | .rdw _
        | .rdkb _ | .rdkw _ | .rdst => []

/-- R136. -/
def Obligations.InitCopiesInitialState : Prop :=
  (encode .init).cmd = 0x30000000 ∧
  ∀ s : State, s.Unlocked →
    ∃ t, exec .init s = .next t ∧ (∀ i : Pos, t.W[i] = s.S[i]) ∧ s.KeepsAllButW t ∧
      s.Answers t [] { data := 0, err := false }

/-- R137. -/
def Obligations.FfwdAddsInitialState : Prop :=
  (encode .ffwd).cmd = 0x31000000 ∧
  ∀ s : State, s.Unlocked →
    ∃ t, exec .ffwd s = .next t ∧ (∀ i : Pos, t.W[i].toNat = (s.W[i].toNat + s.S[i].toNat) % 2 ^ 32) ∧
      s.KeepsAllButW t ∧ s.Answers t [] { data := 0, err := false }

/-- R138: byte `4*i + k` of the buffer is bits `8*k+7 : 8*k` of word i, and `KVALID` is set. -/
def Obligations.SerSerializesWorkingState : Prop :=
  (encode .ser).cmd = 0x32000000 ∧
  ∀ s : State, s.Unlocked →
    ∃ t, exec .ser s = .next t ∧
      (∀ (i : Pos) (k : Fin 4), (t.KB[4 * i.val + k.val]).toNat = bits s.W[i] (8 * k.val + 7) (8 * k.val)) ∧
      t.KVALID = true ∧ t.S = s.S ∧ t.W = s.W ∧ t.ERR = s.ERR ∧ t.ERRCODE = s.ERRCODE ∧ t.inputs = s.inputs ∧
      s.Answers t [] { data := 0, err := false }

/-- R139. -/
def Obligations.BlockComputesBlockFunction : Prop :=
  (encode .block).cmd = 0x33000000 ∧
  ∀ s : State, s.Unlocked →
    ∃ t, exec .block s = .next t ∧ t.KB = blockF s.S ∧
      (∀ i : Pos, t.W[i].toNat = ((mixF s.S)[i].toNat + s.S[i].toNat) % 2 ^ 32) ∧
      (∀ (i : Pos) (k : Fin 4), (t.KB[4 * i.val + k.val]).toNat = bits t.W[i] (8 * k.val + 7) (8 * k.val)) ∧
      t.KVALID = true ∧ t.S = s.S ∧ t.ERR = s.ERR ∧ t.ERRCODE = s.ERRCODE ∧ t.inputs = s.inputs ∧
      s.Answers t (mixEvents s.S) { data := 0, err := false }

/-- R140: `BLOCK` is `INIT`; `MIX`; `FFWD`; `SER`: the same state and the same twenty events, four responses for one;
and `MIX` may be replaced by ten `DBLR` or twenty alternating `COLR` and `DIAGR`. -/
def Obligations.BlockEqualsItsFourSteps : Prop :=
  ∀ s : State, s.Unlocked →
    ∃ t u es, exec .block s = .next t ∧ execList [.init, .mix, .ffwd, .ser] s = .next u ∧
      t.tuple = u.tuple ∧ t.inputs = u.inputs ∧
      s.Answers t es { data := 0, err := false } ∧ es.length = 20 ∧
      u.outputs = s.outputs ++ [.response { data := 0, err := false }] ++ es.map .event ++
        List.replicate 3 (.response { data := 0, err := false }) ∧
      (∀ mix ∈ [List.replicate 10 Instr.dblr, (List.replicate 10 [Instr.colr, Instr.diagr]).flatten],
        ∃ v, execList ([.init] ++ mix ++ [.ffwd, .ser]) s = .next v ∧ v.tuple = t.tuple)

/-- R55: what `BLOCK` leaves in `W` and `KB`, and the events it emits, depend on `S` alone. -/
def Obligations.BlockDependsOnInitialStateAlone : Prop :=
  ∀ s₁ s₂ : State, s₁.Unlocked → s₂.Unlocked → s₁.S = s₂.S →
    ∃ t₁ t₂ es, exec .block s₁ = .next t₁ ∧ exec .block s₂ = .next t₂ ∧
      t₁.W = t₂.W ∧ t₁.KB = t₂.KB ∧ t₁.KVALID = t₂.KVALID ∧
      s₁.Answers t₁ es { data := 0, err := false } ∧ s₂.Answers t₂ es { data := 0, err := false }

/-- R133: serialization is little-endian per word, and LE32 of the four bytes of a word gives the word back. -/
def Obligations.SerializeIsLittleEndianAndInvertible : Prop :=
  ∀ (st : Words16) (i : Pos),
    (∀ k : Fin 4, ((serialize st)[4 * i.val + k.val]).toNat = bits st[i] (8 * k.val + 7) (8 * k.val)) ∧
    le32 (serialize st)[4 * i.val] (serialize st)[4 * i.val + 1] (serialize st)[4 * i.val + 2]
      (serialize st)[4 * i.val + 3] = st[i]

/-- R44: `RDKW i` responds LE32 of its four bytes; byte k of the word that `RDKW i` responds is what `RDKB (4*i + k)` responds, and after `SER` or `BLOCK` the word
is the word i that was serialized. -/
def Obligations.WordAndByteViewsOfKeystreamAgree : Prop :=
  (∀ (s : State) (i : Pos) (k : Fin 4) (j : ByteIdx), s.Unlocked → s.KVALID = true → j.val = 4 * i.val + k.val →
    ∃ u v y x, exec (.rdkw i) s = .next u ∧ exec (.rdkb j) s = .next v ∧
      y = le32 s.KB[4 * i.val] s.KB[4 * i.val + 1] s.KB[4 * i.val + 2] s.KB[4 * i.val + 3] ∧
      s.Answers u [] { data := y, err := false } ∧ s.Answers v [] { data := x, err := false } ∧
      x.toNat = bits y (8 * k.val + 7) (8 * k.val)) ∧
  ∀ (s : State) (i : Pos), s.Unlocked → ∀ c ∈ [Instr.ser, Instr.block],
    ∃ t u, exec c s = .next t ∧ exec (.rdkw i) t = .next u ∧ t.Answers u [] { data := t.W[i], err := false }

/-- R150. -/
def Obligations.LdsLoadsOneInitialWord : Prop :=
  ∀ (i : Pos) (v : Word),
    (encode (.lds i v)).cmd = BitVec.ofNat 32 (0x40000000 + i.val) ∧ (encode (.lds i v)).cmdData = v ∧
    ∀ s : State, s.Unlocked → ∃ t, exec (.lds i v) s = .next t ∧
      t.S[i] = v ∧ (∀ k : Pos, k ≠ i → t.S[k] = s.S[k]) ∧ s.KeepsAllButS t ∧
      s.Answers t [] { data := 0, err := false }

/-- R151 and R152: the two word reads respond the word and change no state. -/
def Obligations.RdsAndRdwReadOneWord : Prop :=
  ∀ i : Pos,
    (encode (.rds i)).cmd = BitVec.ofNat 32 (0x41000000 + i.val) ∧
    (encode (.rdw i)).cmd = BitVec.ofNat 32 (0x42000000 + i.val) ∧
    ∀ s : State, s.Unlocked →
      (∃ t, exec (.rds i) s = .next t ∧ s.KeepsAll t ∧ s.Answers t [] { data := s.S[i], err := false }) ∧
      (∃ t, exec (.rdw i) s = .next t ∧ s.KeepsAll t ∧ s.Answers t [] { data := s.W[i], err := false })

/-- R153 and R154: with `KVALID` = 1 a keystream read responds the byte or the little-endian word and changes no state;
with `KVALID` = 0 it takes fault code 5. -/
def Obligations.KeystreamReadsNeedAValidBlock : Prop :=
  (∀ j : ByteIdx, (encode (.rdkb j)).cmd = BitVec.ofNat 32 (0x43000000 + j.val)) ∧
  (∀ i : Pos, (encode (.rdkw i)).cmd = BitVec.ofNat 32 (0x44000000 + i.val)) ∧
  ∀ s : State, s.Unlocked →
    (∀ j : ByteIdx, ∃ t, exec (.rdkb j) s = .next t ∧
      (s.KVALID = true → s.KeepsAll t ∧
        s.Answers t [] { data := BitVec.ofNat 32 s.KB[j].toNat, err := false }) ∧
      (s.KVALID = false → s.TakesFault .keystreamNotValid t)) ∧
    (∀ i : Pos, ∃ t, exec (.rdkw i) s = .next t ∧
      (s.KVALID = true → s.KeepsAll t ∧
        s.Answers t [] { data := BitVec.ofNat 32 (s.KB[4 * i.val].toNat + 2 ^ 8 * s.KB[4 * i.val + 1].toNat +
          2 ^ 16 * s.KB[4 * i.val + 2].toNat + 2 ^ 24 * s.KB[4 * i.val + 3].toNat), err := false }) ∧
      (s.KVALID = false → s.TakesFault .keystreamNotValid t))

/-- R155 with R27: `RDST` responds the status word in every state, locked-out ones too, and changes nothing; the fields
of the status word; the possible responses. -/
def Obligations.RdstRespondsStatusWord : Prop :=
  (encode .rdst).cmd = 0x45000000 ∧
  ∀ s : State,
    (∃ t, exec .rdst s = .next t ∧ s.KeepsAll t ∧ s.Answers t [] { data := statusWord s, err := false }) ∧
    bits (statusWord s) 0 0 = s.KVALID.toNat ∧ bits (statusWord s) 1 1 = s.ERR.toNat ∧
    bits (statusWord s) 3 2 = 0 ∧ bits (statusWord s) 31 8 = 0 ∧
    (bits (statusWord s) 7 4 =
      match s.ERRCODE with
      | .noFault => 0
      | .cause .illegalOpcode => 1
      | .cause .reservedNonzero => 2
      | .cause .qrPositionsNotDistinct => 3
      | .cause .rotAmountZero => 4
      | .cause .keystreamNotValid => 5) ∧
    (s.Legal → statusWord s ∈ ([0x00, 0x01, 0x12, 0x13, 0x22, 0x23, 0x32, 0x33, 0x42, 0x43, 0x52, 0x53] : List Word))

/-- R202: for each of the five causes, the fault entry with `ERR` = 0 and the `err` pin after it; and the commands that
raise codes 3, 4 and 5 take it (R201; codes 1 and 2 are in the statement of R65). -/
def Obligations.FaultEntryWritesErrAndErrcodeOnly : Prop :=
  ∀ (s : State) (c : Cause), s.Unlocked → s.TakesFault c (raiseFault c s) ∧
    (∀ p : Clocked, p.core = raiseFault c s → p.resetCycle = false → p.pins.err = some true) ∧
    (∀ pd : Pos, exec (.rolw pd 0) s = .next (raiseFault .rotAmountZero s)) ∧
    (∀ a b c d : Pos, ¬ PositionsDistinct a b c d → exec (.qr a b c d) s = .next (raiseFault .qrPositionsNotDistinct s)) ∧
    (s.KVALID = false → (∀ j, exec (.rdkb j) s = .next (raiseFault .keystreamNotValid s)) ∧
      ∀ i, exec (.rdkw i) s = .next (raiseFault .keystreamNotValid s))

/-- R65, with R63's table: a word with none of the 18 opcodes faults with code 1, a word with one of them that is not
`match` under `mask` faults with code 2, and any other word spells the command of its row. -/
def Obligations.IllegalCommandWordsFault : Prop :=
  ∀ (s : State) (cmd cmdData : Word) (rest : List HostInput), s.inputs = .command cmd cmdData :: rest → s.Unlocked →
    ((∀ o : Opcode, o.code ≠ bits cmd 31 24) →
      ∃ t, step s = .next t ∧ State.TakesFault { s with inputs := rest } .illegalOpcode t) ∧
    (∀ o : Opcode, o.code = bits cmd 31 24 → cmd &&& o.maskWord ≠ o.matchWord →
      ∃ t, step s = .next t ∧ State.TakesFault { s with inputs := rest } .reservedNonzero t) ∧
    (∀ o : Opcode, cmd &&& o.maskWord = o.matchWord →
      ∃ i : Instr, i.opcode = o ∧ decode cmd cmdData = .ok i ∧ step s = exec i { s with inputs := rest })

/-- R203: under lockout a command that is not the well-formed `RDST` is refused with no change of state, and `RDST`
responds `STATUS` with `rsp_err` = 0. -/
def Obligations.LockoutRefusesAllButRdst : Prop :=
  ∀ (s : State) (cmd cmdData : Word) (rest : List HostInput), s.inputs = .command cmd cmdData :: rest → s.ERR = true →
    ∃ t, step s = .next t ∧ t.tuple = s.tuple ∧ t.inputs = rest ∧
      s.Answers t [] (if cmd = 0x45000000 then { data := statusWord s, err := false } else { data := 0, err := true })

/-- From R203 and R26: an instruction that is not `RDST` answers under lockout with a refusal and no change. -/
def Obligations.EveryCommandReadsErrFirst : Prop :=
  ∀ (i : Instr) (s : State), s.ERR = true → i ≠ .rdst →
    ∃ t, exec i s = .next t ∧ s.KeepsAll t ∧ s.Answers t [] { data := 0, err := true }

/-- R206 with R26 and R25: nothing but reset clears `ERR`, `ERRCODE` or `KVALID`, and reset also clears the rest. -/
def Obligations.OnlyResetClearsErrAndKvalid : Prop :=
  ∀ s t : State, step s = .next t →
    ((∀ rest, s.inputs ≠ .reset :: rest) →
      (s.ERR = true → t.ERR = true ∧ t.ERRCODE = s.ERRCODE) ∧ (s.KVALID = true → t.KVALID = true)) ∧
    (∀ rest, s.inputs = .reset :: rest → t.ERR = false ∧ t.ERRCODE = .noFault ∧ t.KVALID = false ∧
      t.S = Vector.replicate 16 0 ∧ t.W = Vector.replicate 16 0 ∧ t.KB = Vector.replicate 64 0)

/-- From R20, R21, R24 and R142: which inputs change `S`, `W` and `KB`. -/
def Obligations.OnlyNamedCommandsWriteEachArray : Prop :=
  ∀ s t : State, step s = .next t → (∀ rest, s.inputs ≠ .reset :: rest) →
    (t.S ≠ s.S → ∃ cmd v rest i, s.inputs = .command cmd v :: rest ∧ decode cmd v = .ok (.lds i v) ∧
      t.S = s.S.set i v) ∧
    (t.KB ≠ s.KB ∨ t.KVALID ≠ s.KVALID → ∃ cmd d rest i, s.inputs = .command cmd d :: rest ∧ decode cmd d = .ok i ∧
      (i = .ser ∨ i = .block)) ∧
    (t.W ≠ s.W → ∃ cmd d rest i, s.inputs = .command cmd d :: rest ∧ decode cmd d = .ok i ∧
      i.opcode ∈ [Opcode.init, .addw, .xorw, .rolw, .qr, .colr, .diagr, .dblr, .mix, .ffwd, .block])

/-- Every step from a legal state leads to a legal state. -/
def Obligations.StepKeepsLegalState : Prop :=
  ∀ s t : State, s.Legal → step s = .next t → t.Legal

/-- The state after reset is legal. -/
def Obligations.ResetStateIsLegal : Prop := State.reset.Legal

/-- From R50 and R156: an accepted command, legal or not, gets exactly one response, after its events in increasing
index order from 0; a refused command has data 0 and no event. -/
def Obligations.EveryCommandGetsOneResponse : Prop :=
  ∀ (s : State) (cmd cmdData : Word) (rest : List HostInput), s.inputs = .command cmd cmdData :: rest →
    ∃ t es r, step s = .next t ∧ t.inputs = rest ∧ s.Answers t es r ∧
      es.map (·.idx.toNat) = List.range es.length ∧ (r.err = true → r.data = 0 ∧ es = [])

/-- From R125: what the CORE has given out (the model's own list, log entry 2) never acts on it. -/
def Obligations.OutputsNeverActOnTheCore : Prop :=
  ∀ (s t : State) (outs : List Output), step s = .next t →
    ∃ given, t.outputs = s.outputs ++ given ∧
      step { s with outputs := outs } = .next { t with outputs := outs ++ given }

/-- From R202, R203 and R243: no command stops the machine, and neither does any input. That a fault is a next state is
the model's reading (log entry 8), and the step with nothing presented is the model's own (log entry 1). -/
def Obligations.EveryStepAnswersANextState : Prop :=
  (∀ (i : Instr) (s : State), ∃ t, exec i s = .next t) ∧ ∀ s : State, ∃ t, step s = .next t

/-- From R70: a command word that spells a command is run on the state it was accepted in, as a whole. The model's own
lists (log entries 1 and 2): with nothing presented nothing changes, and a reset step takes the reset input off what is
presented and keeps what was given out. -/
def Obligations.StepRunsTheDecodedCommand : Prop :=
  (∀ (s : State) (cmd cmdData : Word) (rest : List HostInput) (i : Instr), s.inputs = .command cmd cmdData :: rest →
    decode cmd cmdData = .ok i → step s = exec i { s with inputs := rest }) ∧
  (∀ s : State, s.inputs = [] → step s = .next s) ∧
  ∀ (s : State) (rest : List HostInput), s.inputs = .reset :: rest →
    ∃ t, step s = .next t ∧ t.inputs = rest ∧ t.outputs = s.outputs

/-- Decoding the words of a command gives it back, every operand at every value. -/
def Obligations.DecodeEncodeRoundTrip : Prop :=
  ∀ i : Instr, decode (encode i).cmd (encode i).cmdData = .ok i

/-- A command word that decodes is the encoder's word for what it decodes to, and only `LDS` looks at the data operand. -/
def Obligations.DecodedWordsAreTheEncodersWords : Prop :=
  ∀ (cmd cmdData : Word) (i : Instr), decode cmd cmdData = .ok i →
    (encode i).cmd = cmd ∧ (encode i).cmdData = (if i.opcode = .lds then cmdData else 0) ∧
    ∀ d : Word, i.opcode ≠ .lds → decode cmd d = .ok i

/-- R63: a word spells a command exactly when it is the row's `match` under the row's `mask`, and no word spells two. -/
def Obligations.MatchAndMaskSpellTheCommands : Prop :=
  (∀ (w d : Word) (o : Opcode),
    w &&& o.maskWord = o.matchWord ↔ ∃ i : Instr, i.opcode = o ∧ decode w d = .ok i) ∧
  ∀ (w : Word) (o₁ o₂ : Opcode), w &&& o₁.maskWord = o₁.matchWord → w &&& o₂.maskWord = o₂.matchWord → o₁ = o₂

/-- One word per family, written out from R63's patterns. -/
def Obligations.SpecWordsDecodeToTheirCommands : Prop :=
  decode 0x01000031 0 = .ok (.addw 3 1) ∧ decode 0x03001f10 0 = .ok (.rolw 1 31) ∧
  decode 0x1000278d 0 = .ok (.qr 2 7 8 13) ∧ decode 0x22000000 0 = .ok .dblr ∧ decode 0x33000000 0 = .ok .block ∧
  decode 0x4000000c 1 = .ok (.lds 12 1) ∧ decode 0x4300003f 0 = .ok (.rdkb 63)

/-- From R245 and R11: on the wires an accepted command gets, exactly `LAT(op)` cycles later, the one response the
command-level step gives; until then the state is as it was and `cmd_ready` is 0; in the response cycle the state is the
command-level one; the cycle after, `cmd_ready` is 1; and the events of the command-level step, no others, are presented
in their cycles. It holds for every timing the spec allows. Which cycle counts as the LAT(op)-th is the model's reading
(log entry 5), and so is the cycle in which `cmd_ready` is 1 again (log entry 6). -/
def Obligations.PinsCarryTheCommandLevelStep : Prop :=
  ∀ (T : Timing) (c : Clocked) (ins : Nat → PinIn),
    c.flight = none → c.cmdReady = true → (ins 0).cmdValid = true → (∀ n, (ins n).rst = false) →
    let opc := bits (ins 0).cmd 31 24
    ∃ t es r, step (c.core.present (.command (ins 0).cmd (ins 0).cmdData)) = .next t ∧ c.core.Answers t es r ∧
      (∀ m, m < T.lat opc →
        (c.after T ins (1 + m)).core = c.core ∧ (c.after T ins (1 + m)).rsp = none ∧
        (c.after T ins (1 + m)).cmdReady = false) ∧
      (c.after T ins (1 + T.lat opc)).core = t ∧ (c.after T ins (1 + T.lat opc)).rsp = some r ∧
      (c.after T ins (1 + T.lat opc)).cmdReady = false ∧
      (c.after T ins (2 + T.lat opc)).core = t ∧ (c.after T ins (2 + T.lat opc)).rsp = none ∧
      (c.after T ins (2 + T.lat opc)).cmdReady = true ∧
      (∀ (k : Nat) (e : Event), es[k]? = some e → T.obsAt opc k ≤ T.lat opc ∧
        (c.after T ins (1 + T.obsAt opc k)).obs = some e) ∧
      (∀ m, m ≤ T.lat opc → (∀ k, k < es.length → m ≠ T.obsAt opc k) → (c.after T ins (1 + m)).obs = none)

/-- From R230: a reset edge clears all state, abandons the command in flight without a response or an event, accepts
nothing, and leaves `cmd_ready`, `rsp_valid` and `obs_valid` at 0; one edge later the CORE is ready (log entry 6). -/
def Obligations.ResetEdgeAbandonsTheCommand : Prop :=
  ∀ (T : Timing) (c : Clocked) (i j : PinIn), i.rst = true → j.rst = false →
    (c.edge T i).core.tuple = State.reset.tuple ∧ (c.edge T i).flight = none ∧ (c.edge T i).rsp = none ∧
    (c.edge T i).obs = none ∧ (c.edge T i).core.outputs = c.core.outputs ∧
    (c.edge T i).pins.cmdReady = false ∧ (c.edge T i).pins.rspValid = false ∧ (c.edge T i).pins.obsValid = false ∧
    ((c.edge T i).edge T j).flight = none ∧ ((c.edge T i).edge T j).cmdReady = true ∧
    ((c.edge T i).edge T j).core.tuple = State.reset.tuple

/-- From R45: word i of the snapshot is on bits `32*i+31 : 32*i` of the observer bus. -/
def Obligations.ObserverBusHoldsWordsInOrder : Prop :=
  ∀ (w : Words16) (i : Pos), (obsStateBus w).extractLsb' (32 * i.val) 32 = w[i]

/-- R172 and R174: the words of an initial state; R171, R183: a wrong length gives an applicable error and no state. -/
def Obligations.InitStateBuildsTheSixteenWords : Prop :=
  ∀ (key : List Byte) (counter : Word) (nonce : List Byte),
    (key.length = 32 ∧ nonce.length = 12 → ∃ st, initState key counter nonce = .ok st ∧
      st[0] = 0x61707865 ∧ st[1] = 0x3320646e ∧ st[2] = 0x79622d32 ∧ st[3] = 0x6b206574 ∧
      (∀ m : Fin 8, st[4 + m.val] = le32 (key.getD (4 * m.val) 0) (key.getD (4 * m.val + 1) 0)
        (key.getD (4 * m.val + 2) 0) (key.getD (4 * m.val + 3) 0)) ∧
      st[12] = counter ∧
      (∀ m : Fin 3, st[13 + m.val] = le32 (nonce.getD (4 * m.val) 0) (nonce.getD (4 * m.val + 1) 0)
        (nonce.getD (4 * m.val + 2) 0) (nonce.getD (4 * m.val + 3) 0))) ∧
    (¬ (key.length = 32 ∧ nonce.length = 12) → ∃ e, initState key counter nonce = .error e ∧
      ((e = .invalidKeyLength ∧ key.length ≠ 32) ∨ (e = .invalidNonceLength ∧ nonce.length ≠ 12)))

/-- R187 with R182: `xor_stream` succeeds exactly when both lengths are right and the counter would not wrap; otherwise
it fails with an error that applies, and gives no output. -/
def Obligations.XorStreamRejectsBeforeTheCounterWraps : Prop :=
  ∀ (key nonce : List Byte) (c0 : Word) (input : List Byte),
    let good := key.length = 32 ∧ nonce.length = 12 ∧ c0.toNat + (input.length + 63) / 64 ≤ 2 ^ 32
    (good → ∃ out, xorStream key nonce c0 input = .ok out ∧ out.length = input.length) ∧
    (¬ good → ∃ e, xorStream key nonce c0 input = .error e ∧
      ((e = .invalidKeyLength ∧ key.length ≠ 32) ∨ (e = .invalidNonceLength ∧ nonce.length ≠ 12) ∨
        (e = .counterOverflow ∧ c0.toNat + (input.length + 63) / 64 > 2 ^ 32)))

/-- R177 and R180: every output byte is the input byte XOR the byte of the block of its own counter value, and an empty
input gives an empty output. -/
def Obligations.XorStreamXorsTheKeystream : Prop :=
  (∀ (key nonce : List Byte) (c0 : Word) (input output : List Byte), xorStream key nonce c0 input = .ok output →
    output.length = input.length ∧
    ∀ (p : Nat) (h : p < input.length), c0.toNat + p / 64 < 2 ^ 32 ∧
      ∃ st, initState key (BitVec.ofNat 32 (c0.toNat + p / 64)) nonce = .ok st ∧
        output[p]? = some (input[p] ^^^ (blockF st)[p % 64]'(Nat.mod_lt p (by decide)))) ∧
  ∀ (key nonce : List Byte) (c0 : Word), key.length = 32 → nonce.length = 12 → xorStream key nonce c0 [] = .ok []

/-- R181: encryption and decryption are the same operation. -/
def Obligations.XorStreamIsAnInvolution : Prop :=
  ∀ (key nonce : List Byte) (c0 : Word) (input output : List Byte),
    xorStream key nonce c0 input = .ok output → xorStream key nonce c0 output = .ok input

/-- From R178, R179, R187 and R240: two pieces fed one after the other give what the same bytes give at once, the
overflow included; where `xor_stream` succeeds the stream starts, gives its output and makes one block per 64 bytes
begun; a wrong length gives an applicable error and no stream; and with right lengths a stream that would need a block
past counter value `2^32 - 1` fails with `CounterOverflow` and gives no output. When a stream fed in pieces reports an
error is the model's choice (log entry 11). -/
def Obligations.StreamingEqualsXorStream : Prop :=
  (∀ (h : HostStream) (xs ys : List Byte),
    h.feed (xs ++ ys) =
      match h.feed xs with
      | .error e => .error e
      | .ok (out, h') =>
        match h'.feed ys with
        | .error e => .error e
        | .ok (out', h'') => .ok (out ++ out', h'')) ∧
  ∀ (key nonce : List Byte) (c0 : Word) (input : List Byte),
    (∀ output, xorStream key nonce c0 input = .ok output →
      ∃ h h', HostStream.start key nonce c0 = .ok h ∧ h.feed input = .ok (output, h') ∧
        h'.counter = c0.toNat + (input.length + 63) / 64) ∧
    (¬ (key.length = 32 ∧ nonce.length = 12) → ∃ e, HostStream.start key nonce c0 = .error e ∧
      ((e = .invalidKeyLength ∧ key.length ≠ 32) ∨ (e = .invalidNonceLength ∧ nonce.length ≠ 12))) ∧
    (key.length = 32 → nonce.length = 12 → c0.toNat + (input.length + 63) / 64 > 2 ^ 32 →
      ∃ h, HostStream.start key nonce c0 = .ok h ∧ h.feed input = .error .counterOverflow)

/-- R69: `LDSTATE` loads all sixteen words, by sixteen `LDS` in position order, and changes nothing else. -/
def Obligations.LdstateLoadsAllSixteenWords : Prop :=
  ∀ st : Words16,
    (∀ i : Pos, (ldstate st)[i.val]? = some (.lds i st[i])) ∧ (ldstate st).length = 16 ∧
    ∀ s : State, s.Unlocked → ∃ t, execList (ldstate st) s = .next t ∧ t.S = st ∧ s.KeepsAllButS t ∧
      t.outputs = s.outputs ++ List.replicate 16 (.response { data := 0, err := false })

/-- R175: all sixteen `LDS` in any order, then `BLOCK`, on the command port: the buffer holds the block function of the
state loaded, whatever the CORE held before; for the next block `LDS 12` and `BLOCK` are enough. -/
def Obligations.LoadThenBlockGivesTheBlockFunction : Prop :=
  (∀ (st : Words16) (order : List Pos) (s : State), s.Unlocked → order.Perm (List.finRange 16) →
    ∃ t, Sys2Proof.core.run 17 { s with inputs := asInputs (blockCommands st order) } = .next t ∧
      t.S = st ∧ t.KB = blockF st ∧ t.KVALID = true ∧ t.ERR = false ∧ t.inputs = []) ∧
  ∀ (key nonce : List Byte) (c₁ c₂ : Word) (s : State), s.Unlocked → s.S = initWords key c₁ nonce →
    ∃ t, execList [.lds 12 c₂, .block] s = .next t ∧ t.S = initWords key c₂ nonce ∧
      t.KB = blockF (initWords key c₂ nonce)
end

