-- ==== Sys2Proof/Laws/Decode.lean ====
section
/-! SUPPORT. The decoder and the encoder, said once: which opcode a number names, when a word decodes and to what, and
the command word as a number. -/

namespace Sys2Proof

theorem Opcode.ofCode?_code (o : Opcode) : Opcode.ofCode? o.code = some o := by cases o <;> decide

/-- A number names an opcode exactly when it is that opcode's code. -/
theorem Opcode.ofCode?_eq_some {n : Nat} {o : Opcode} : Opcode.ofCode? n = some o ↔ o.code = n := by
  refine ⟨fun h => ?_, fun h => h ▸ o.ofCode?_code⟩
  simpa using List.find?_some h

theorem Opcode.ofCode?_eq_none {n : Nat} : Opcode.ofCode? n = none ↔ ∀ o : Opcode, o.code ≠ n := by
  refine ⟨fun h o ho => ?_, fun h => ?_⟩
  · rw [Opcode.ofCode?_eq_some.2 ho] at h; cases h
  · cases hn : Opcode.ofCode? n with
    | none => rfl
    | some o => exact absurd (Opcode.ofCode?_eq_some.1 hn) (h o)

theorem Opcode.code_injective {a b : Opcode} (h : a.code = b.code) : a = b :=
  (Option.some.inj ((a.ofCode?_code).symm.trans (h ▸ b.ofCode?_code)))

theorem Opcode.opcode_assemble (o : Opcode) (cmd d : Word) : (o.assemble cmd d).opcode = o := by cases o <;> rfl

/-- When a word decodes, and to what. -/
theorem decode_eq_ok {cmd d : Word} {i : Instr} :
    decode cmd d = .ok i ↔ ∃ o : Opcode, o.code = bits cmd 31 24 ∧ o.reservedClear cmd = true ∧ o.assemble cmd d = i := by
  unfold decode
  cases h : Opcode.ofCode? (bits cmd 31 24) with
  | none => simp only [reduceCtorEq, false_iff]; rintro ⟨o, ho, -⟩; exact Opcode.ofCode?_eq_none.1 h o ho
  | some o =>
    have ho := Opcode.ofCode?_eq_some.1 h
    constructor
    · intro hh; simp only at hh; split at hh
      · exact ⟨o, ho, by assumption, by simpa using hh⟩
      · cases hh
    · rintro ⟨o', ho', h1, h2⟩
      obtain rfl := Opcode.code_injective (ho'.trans ho.symm)
      simp [h1, h2]

/-- When a word is illegal of kind (a). -/
theorem decode_eq_illegalOpcode {cmd d : Word} :
    decode cmd d = .error .illegalOpcode ↔ ∀ o : Opcode, o.code ≠ bits cmd 31 24 := by
  unfold decode
  cases h : Opcode.ofCode? (bits cmd 31 24) with
  | none => simpa using Opcode.ofCode?_eq_none.1 h
  | some o =>
    have ho := Opcode.ofCode?_eq_some.1 h
    refine ⟨fun hh => ?_, fun hh => absurd ho (hh o)⟩
    simp only at hh; split at hh <;> cases hh

/-- When a word is illegal of kind (b). -/
theorem decode_eq_reservedNonzero {cmd d : Word} :
    decode cmd d = .error .reservedNonzero ↔ ∃ o : Opcode, o.code = bits cmd 31 24 ∧ o.reservedClear cmd = false := by
  unfold decode
  cases h : Opcode.ofCode? (bits cmd 31 24) with
  | none => simp only [Except.error.injEq, reduceCtorEq, false_iff]; rintro ⟨o, ho, -⟩; exact Opcode.ofCode?_eq_none.1 h o ho
  | some o =>
    have ho := Opcode.ofCode?_eq_some.1 h
    simp only
    constructor
    · intro hh; split at hh
      · cases hh
      · exact ⟨o, ho, by simp_all⟩
    · rintro ⟨o', ho', h1⟩
      obtain rfl := Opcode.code_injective (ho'.trans ho.symm)
      simp [h1]

theorem Opcode.code_lt (o : Opcode) : o.code < 2 ^ 8 := by cases o <;> decide

theorem Instr.arg_lt (i : Instr) : i.arg < 2 ^ 16 := by cases i <;> simp [Instr.arg] <;> omega

/-- The command word as a number: opcode and operand field, the reserved field 0. -/
theorem encode_cmd_toNat (i : Instr) : (encode i).cmd.toNat = 2 ^ 24 * i.opcode.code + i.arg := by
  have := i.arg_lt
  have := i.opcode.code_lt
  simp only [encode, BitVec.toNat_ofNat]
  omega

end Sys2Proof
end

