-- ==== Sys2Proof/Laws/State.lean ====
section
/-! SUPPORT. One lemma per field per update of the state, true by rfl or by the lemmas of the update it is made of: no later proof unfolds a record update. -/

namespace Sys2Proof.Machine

variable (s : State)

@[simp] theorem State.writeS_S (i : Pos) (v : Word) : (s.writeS i v).S = s.S.set i v := rfl
@[simp] theorem State.writeS_W (i : Pos) (v : Word) : (s.writeS i v).W = s.W := rfl
@[simp] theorem State.writeS_KB (i : Pos) (v : Word) : (s.writeS i v).KB = s.KB := rfl
@[simp] theorem State.writeS_KVALID (i : Pos) (v : Word) : (s.writeS i v).KVALID = s.KVALID := rfl
@[simp] theorem State.writeS_ERR (i : Pos) (v : Word) : (s.writeS i v).ERR = s.ERR := rfl
@[simp] theorem State.writeS_ERRCODE (i : Pos) (v : Word) : (s.writeS i v).ERRCODE = s.ERRCODE := rfl
@[simp] theorem State.writeS_inputs (i : Pos) (v : Word) : (s.writeS i v).inputs = s.inputs := rfl
@[simp] theorem State.writeS_outputs (i : Pos) (v : Word) : (s.writeS i v).outputs = s.outputs := rfl

@[simp] theorem State.writeW_S (i : Pos) (v : Word) : (s.writeW i v).S = s.S := rfl
@[simp] theorem State.writeW_W (i : Pos) (v : Word) : (s.writeW i v).W = s.W.set i v := rfl
@[simp] theorem State.writeW_KB (i : Pos) (v : Word) : (s.writeW i v).KB = s.KB := rfl
@[simp] theorem State.writeW_KVALID (i : Pos) (v : Word) : (s.writeW i v).KVALID = s.KVALID := rfl
@[simp] theorem State.writeW_ERR (i : Pos) (v : Word) : (s.writeW i v).ERR = s.ERR := rfl
@[simp] theorem State.writeW_ERRCODE (i : Pos) (v : Word) : (s.writeW i v).ERRCODE = s.ERRCODE := rfl
@[simp] theorem State.writeW_inputs (i : Pos) (v : Word) : (s.writeW i v).inputs = s.inputs := rfl
@[simp] theorem State.writeW_outputs (i : Pos) (v : Word) : (s.writeW i v).outputs = s.outputs := rfl

@[simp] theorem State.setW_S (w : Words16) : (s.setW w).S = s.S := rfl
@[simp] theorem State.setW_W (w : Words16) : (s.setW w).W = w := rfl
@[simp] theorem State.setW_KB (w : Words16) : (s.setW w).KB = s.KB := rfl
@[simp] theorem State.setW_KVALID (w : Words16) : (s.setW w).KVALID = s.KVALID := rfl
@[simp] theorem State.setW_ERR (w : Words16) : (s.setW w).ERR = s.ERR := rfl
@[simp] theorem State.setW_ERRCODE (w : Words16) : (s.setW w).ERRCODE = s.ERRCODE := rfl
@[simp] theorem State.setW_inputs (w : Words16) : (s.setW w).inputs = s.inputs := rfl
@[simp] theorem State.setW_outputs (w : Words16) : (s.setW w).outputs = s.outputs := rfl

@[simp] theorem State.setKB_S (k : Block64) : (s.setKB k).S = s.S := rfl
@[simp] theorem State.setKB_W (k : Block64) : (s.setKB k).W = s.W := rfl
@[simp] theorem State.setKB_KB (k : Block64) : (s.setKB k).KB = k := rfl
@[simp] theorem State.setKB_KVALID (k : Block64) : (s.setKB k).KVALID = true := rfl
@[simp] theorem State.setKB_ERR (k : Block64) : (s.setKB k).ERR = s.ERR := rfl
@[simp] theorem State.setKB_ERRCODE (k : Block64) : (s.setKB k).ERRCODE = s.ERRCODE := rfl
@[simp] theorem State.setKB_inputs (k : Block64) : (s.setKB k).inputs = s.inputs := rfl
@[simp] theorem State.setKB_outputs (k : Block64) : (s.setKB k).outputs = s.outputs := rfl

@[simp] theorem State.emit_S (es : List Event) : (s.emit es).S = s.S := rfl
@[simp] theorem State.emit_W (es : List Event) : (s.emit es).W = s.W := rfl
@[simp] theorem State.emit_KB (es : List Event) : (s.emit es).KB = s.KB := rfl
@[simp] theorem State.emit_KVALID (es : List Event) : (s.emit es).KVALID = s.KVALID := rfl
@[simp] theorem State.emit_ERR (es : List Event) : (s.emit es).ERR = s.ERR := rfl
@[simp] theorem State.emit_ERRCODE (es : List Event) : (s.emit es).ERRCODE = s.ERRCODE := rfl
@[simp] theorem State.emit_inputs (es : List Event) : (s.emit es).inputs = s.inputs := rfl
@[simp] theorem State.emit_outputs (es : List Event) : (s.emit es).outputs = s.outputs ++ es.map Output.event := rfl

@[simp] theorem State.respond_S (v : Word) : (s.respond v).S = s.S := rfl
@[simp] theorem State.respond_W (v : Word) : (s.respond v).W = s.W := rfl
@[simp] theorem State.respond_KB (v : Word) : (s.respond v).KB = s.KB := rfl
@[simp] theorem State.respond_KVALID (v : Word) : (s.respond v).KVALID = s.KVALID := rfl
@[simp] theorem State.respond_ERR (v : Word) : (s.respond v).ERR = s.ERR := rfl
@[simp] theorem State.respond_ERRCODE (v : Word) : (s.respond v).ERRCODE = s.ERRCODE := rfl
@[simp] theorem State.respond_inputs (v : Word) : (s.respond v).inputs = s.inputs := rfl
@[simp] theorem State.respond_outputs (v : Word) : (s.respond v).outputs = s.outputs ++ [.response { data := v, err := false }] := rfl

@[simp] theorem State.refuse_S : (s.refuse).S = s.S := rfl
@[simp] theorem State.refuse_W : (s.refuse).W = s.W := rfl
@[simp] theorem State.refuse_KB : (s.refuse).KB = s.KB := rfl
@[simp] theorem State.refuse_KVALID : (s.refuse).KVALID = s.KVALID := rfl
@[simp] theorem State.refuse_ERR : (s.refuse).ERR = s.ERR := rfl
@[simp] theorem State.refuse_ERRCODE : (s.refuse).ERRCODE = s.ERRCODE := rfl
@[simp] theorem State.refuse_inputs : (s.refuse).inputs = s.inputs := rfl
@[simp] theorem State.refuse_outputs : (s.refuse).outputs = s.outputs ++ [.response { data := 0, err := true }] := rfl

@[simp] theorem State.copyS_S : (s.copyS).S = s.S := by simp only [State.copyS, State.setW_S]
@[simp] theorem State.copyS_W : (s.copyS).W = s.S := by simp only [State.copyS, State.setW_W]
@[simp] theorem State.copyS_KB : (s.copyS).KB = s.KB := by simp only [State.copyS, State.setW_KB]
@[simp] theorem State.copyS_KVALID : (s.copyS).KVALID = s.KVALID := by simp only [State.copyS, State.setW_KVALID]
@[simp] theorem State.copyS_ERR : (s.copyS).ERR = s.ERR := by simp only [State.copyS, State.setW_ERR]
@[simp] theorem State.copyS_ERRCODE : (s.copyS).ERRCODE = s.ERRCODE := by simp only [State.copyS, State.setW_ERRCODE]
@[simp] theorem State.copyS_inputs : (s.copyS).inputs = s.inputs := by simp only [State.copyS, State.setW_inputs]
@[simp] theorem State.copyS_outputs : (s.copyS).outputs = s.outputs := by simp only [State.copyS, State.setW_outputs]

@[simp] theorem State.feedForward_S : (s.feedForward).S = s.S := by simp only [State.feedForward, State.setW_S]
@[simp] theorem State.feedForward_W : (s.feedForward).W = feedFwd s.W s.S := by simp only [State.feedForward, State.setW_W]
@[simp] theorem State.feedForward_KB : (s.feedForward).KB = s.KB := by simp only [State.feedForward, State.setW_KB]
@[simp] theorem State.feedForward_KVALID : (s.feedForward).KVALID = s.KVALID := by simp only [State.feedForward, State.setW_KVALID]
@[simp] theorem State.feedForward_ERR : (s.feedForward).ERR = s.ERR := by simp only [State.feedForward, State.setW_ERR]
@[simp] theorem State.feedForward_ERRCODE : (s.feedForward).ERRCODE = s.ERRCODE := by simp only [State.feedForward, State.setW_ERRCODE]
@[simp] theorem State.feedForward_inputs : (s.feedForward).inputs = s.inputs := by simp only [State.feedForward, State.setW_inputs]
@[simp] theorem State.feedForward_outputs : (s.feedForward).outputs = s.outputs := by simp only [State.feedForward, State.setW_outputs]

@[simp] theorem State.serializeW_S : (s.serializeW).S = s.S := by simp only [State.serializeW, State.setKB_S]
@[simp] theorem State.serializeW_W : (s.serializeW).W = s.W := by simp only [State.serializeW, State.setKB_W]
@[simp] theorem State.serializeW_KB : (s.serializeW).KB = serialize s.W := by simp only [State.serializeW, State.setKB_KB]
@[simp] theorem State.serializeW_KVALID : (s.serializeW).KVALID = true := by simp only [State.serializeW, State.setKB_KVALID]
@[simp] theorem State.serializeW_ERR : (s.serializeW).ERR = s.ERR := by simp only [State.serializeW, State.setKB_ERR]
@[simp] theorem State.serializeW_ERRCODE : (s.serializeW).ERRCODE = s.ERRCODE := by simp only [State.serializeW, State.setKB_ERRCODE]
@[simp] theorem State.serializeW_inputs : (s.serializeW).inputs = s.inputs := by simp only [State.serializeW, State.setKB_inputs]
@[simp] theorem State.serializeW_outputs : (s.serializeW).outputs = s.outputs := by simp only [State.serializeW, State.setKB_outputs]

@[simp] theorem State.pass_S (ks : List PassKind) : (s.pass ks).S = s.S := by simp only [State.pass, State.emit_S, State.setW_S]
@[simp] theorem State.pass_W (ks : List PassKind) : (s.pass ks).W = (runPasses ks 0 s.W).1 := by simp only [State.pass, State.emit_W, State.setW_W]
@[simp] theorem State.pass_KB (ks : List PassKind) : (s.pass ks).KB = s.KB := by simp only [State.pass, State.emit_KB, State.setW_KB]
@[simp] theorem State.pass_KVALID (ks : List PassKind) : (s.pass ks).KVALID = s.KVALID := by simp only [State.pass, State.emit_KVALID, State.setW_KVALID]
@[simp] theorem State.pass_ERR (ks : List PassKind) : (s.pass ks).ERR = s.ERR := by simp only [State.pass, State.emit_ERR, State.setW_ERR]
@[simp] theorem State.pass_ERRCODE (ks : List PassKind) : (s.pass ks).ERRCODE = s.ERRCODE := by simp only [State.pass, State.emit_ERRCODE, State.setW_ERRCODE]
@[simp] theorem State.pass_inputs (ks : List PassKind) : (s.pass ks).inputs = s.inputs := by simp only [State.pass, State.emit_inputs, State.setW_inputs]
@[simp] theorem State.pass_outputs (ks : List PassKind) : (s.pass ks).outputs = s.outputs ++ (runPasses ks 0 s.W).2.map Output.event := by simp only [State.pass, State.emit_outputs, State.setW_outputs]

@[simp] theorem State.present_S (x : HostInput) : (s.present x).S = s.S := rfl
@[simp] theorem State.present_W (x : HostInput) : (s.present x).W = s.W := rfl
@[simp] theorem State.present_KB (x : HostInput) : (s.present x).KB = s.KB := rfl
@[simp] theorem State.present_KVALID (x : HostInput) : (s.present x).KVALID = s.KVALID := rfl
@[simp] theorem State.present_ERR (x : HostInput) : (s.present x).ERR = s.ERR := rfl
@[simp] theorem State.present_ERRCODE (x : HostInput) : (s.present x).ERRCODE = s.ERRCODE := rfl
@[simp] theorem State.present_inputs (x : HostInput) : (s.present x).inputs = x :: s.inputs := rfl
@[simp] theorem State.present_outputs (x : HostInput) : (s.present x).outputs = s.outputs := rfl

@[simp] theorem State.applyReset_S : (s.applyReset).S = State.reset.S := rfl
@[simp] theorem State.applyReset_W : (s.applyReset).W = State.reset.W := rfl
@[simp] theorem State.applyReset_KB : (s.applyReset).KB = State.reset.KB := rfl
@[simp] theorem State.applyReset_KVALID : (s.applyReset).KVALID = State.reset.KVALID := rfl
@[simp] theorem State.applyReset_ERR : (s.applyReset).ERR = State.reset.ERR := rfl
@[simp] theorem State.applyReset_ERRCODE : (s.applyReset).ERRCODE = State.reset.ERRCODE := rfl
@[simp] theorem State.applyReset_inputs : (s.applyReset).inputs = s.inputs := rfl
@[simp] theorem State.applyReset_outputs : (s.applyReset).outputs = s.outputs := rfl

end Sys2Proof.Machine
end

