-- ==== Sys2Proof/Laws/Exec.lean ====
section
/-! SUPPORT. What each shared operation and each command answers, said once: later proofs cite these and do not unfold
the operations. -/

namespace Sys2Proof.Machine

variable {s : State}

/-- A command that reads `ERR` first, on a CORE that is not locked out. -/
theorem ifUnlocked_of_unlocked (k : State → State) (h : s.ERR = false) : ifUnlocked s k = .next (k s) := by
  simp [ifUnlocked, h]

/-- The same under lockout. -/
theorem ifUnlocked_of_locked (k : State → State) (h : s.ERR = true) : ifUnlocked s k = .next s.refuse := by
  simp [ifUnlocked, h]

theorem raiseFault_of_unlocked (c : Cause) (h : s.ERR = false) :
    raiseFault c s = { s with ERR := true, ERRCODE := .cause c }.refuse := by
  simp [raiseFault, h]

theorem raiseFault_of_locked (c : Cause) (h : s.ERR = true) : raiseFault c s = s.refuse := by
  simp [raiseFault, h]

/-- Taking a fault: everything it can do. -/
theorem raiseFault_fields (c : Cause) (s : State) :
    (raiseFault c s).S = s.S ∧ (raiseFault c s).W = s.W ∧ (raiseFault c s).KB = s.KB ∧
    (raiseFault c s).KVALID = s.KVALID ∧ (raiseFault c s).ERR = true ∧
    (raiseFault c s).ERRCODE = (if s.ERR then s.ERRCODE else .cause c) ∧ (raiseFault c s).inputs = s.inputs ∧
    (raiseFault c s).outputs = s.outputs ++ [.response { data := 0, err := true }] := by
  cases h : s.ERR <;> simp [raiseFault, h]

@[simp] theorem raiseFault_S (c : Cause) (s : State) : (raiseFault c s).S = s.S := (raiseFault_fields c s).1
@[simp] theorem raiseFault_W (c : Cause) (s : State) : (raiseFault c s).W = s.W := (raiseFault_fields c s).2.1
@[simp] theorem raiseFault_KB (c : Cause) (s : State) : (raiseFault c s).KB = s.KB := (raiseFault_fields c s).2.2.1
@[simp] theorem raiseFault_KVALID (c : Cause) (s : State) : (raiseFault c s).KVALID = s.KVALID :=
  (raiseFault_fields c s).2.2.2.1
@[simp] theorem raiseFault_ERR (c : Cause) (s : State) : (raiseFault c s).ERR = true := (raiseFault_fields c s).2.2.2.2.1
@[simp] theorem raiseFault_ERRCODE (c : Cause) (s : State) :
    (raiseFault c s).ERRCODE = if s.ERR then s.ERRCODE else .cause c := (raiseFault_fields c s).2.2.2.2.2.1
@[simp] theorem raiseFault_inputs (c : Cause) (s : State) : (raiseFault c s).inputs = s.inputs :=
  (raiseFault_fields c s).2.2.2.2.2.2.1
@[simp] theorem raiseFault_outputs (c : Cause) (s : State) :
    (raiseFault c s).outputs = s.outputs ++ [.response { data := 0, err := true }] :=
  (raiseFault_fields c s).2.2.2.2.2.2.2

/-- A keystream read with a valid block responds and changes nothing else. -/
theorem respondKey_of_valid (v : Word) (h : s.KVALID = true) : s.respondKey v = s.respond v := by
  simp [State.respondKey, h]

theorem respondKey_of_invalid (v : Word) (h : s.KVALID = false) :
    s.respondKey v = raiseFault .keystreamNotValid s := by
  simp [State.respondKey, h]

section unlocked

variable (h : s.ERR = false)
include h

theorem exec_addw (pd ps : Pos) :
    exec (.addw pd ps) s = .next ((s.writeW pd (add32 (s.readW pd) (s.readW ps))).respond 0) := by
  simp only [exec, execAddw, ifUnlocked_of_unlocked _ h]

theorem exec_xorw (pd ps : Pos) :
    exec (.xorw pd ps) s = .next ((s.writeW pd (xor32 (s.readW pd) (s.readW ps))).respond 0) := by
  simp only [exec, execXorw, ifUnlocked_of_unlocked _ h]

theorem exec_rolw (pd : Pos) (n : Fin 32) (hn : n ≠ 0) :
    exec (.rolw pd n) s = .next ((s.writeW pd (rotl32 (s.readW pd) ⟨n, hn⟩)).respond 0) := by
  simp only [exec, execRolw, ifUnlocked_of_unlocked _ h, dif_pos hn]

theorem exec_rolw_zero (pd : Pos) : exec (.rolw pd 0) s = .next (raiseFault .rotAmountZero s) := by
  simp only [exec, execRolw, ifUnlocked_of_unlocked _ h, ne_eq, not_true, dite_false]

theorem exec_qr (a b c d : Pos) (hd : PositionsDistinct a b c d) :
    exec (.qr a b c d) s = .next ((s.setW (qrs s.W ⟨a, b, c, d, hd⟩)).respond 0) := by
  simp only [exec, execQr, ifUnlocked_of_unlocked _ h, dif_pos hd]

theorem exec_qr_repeated (a b c d : Pos) (hd : ¬ PositionsDistinct a b c d) :
    exec (.qr a b c d) s = .next (raiseFault .qrPositionsNotDistinct s) := by
  simp only [exec, execQr, ifUnlocked_of_unlocked _ h, dif_neg hd]

theorem exec_colr : exec .colr s = .next ((s.pass [.column]).respond 0) := by
  simp only [exec, execColr, ifUnlocked_of_unlocked _ h]

theorem exec_diagr : exec .diagr s = .next ((s.pass [.diagonal]).respond 0) := by
  simp only [exec, execDiagr, ifUnlocked_of_unlocked _ h]

theorem exec_dblr : exec .dblr s = .next ((s.pass [.column, .diagonal]).respond 0) := by
  simp only [exec, execDblr, ifUnlocked_of_unlocked _ h]

theorem exec_mix : exec .mix s = .next ((s.pass mixPasses).respond 0) := by
  simp only [exec, execMix, ifUnlocked_of_unlocked _ h]

theorem exec_init : exec .init s = .next (s.copyS.respond 0) := by
  simp only [exec, execInit, ifUnlocked_of_unlocked _ h]

theorem exec_ffwd : exec .ffwd s = .next (s.feedForward.respond 0) := by
  simp only [exec, execFfwd, ifUnlocked_of_unlocked _ h]

theorem exec_ser : exec .ser s = .next (s.serializeW.respond 0) := by
  simp only [exec, execSer, ifUnlocked_of_unlocked _ h]

theorem exec_block : exec .block s = .next (((s.copyS.pass mixPasses).feedForward.serializeW).respond 0) := by
  simp only [exec, execBlock, ifUnlocked_of_unlocked _ h]

theorem exec_lds (i : Pos) (v : Word) : exec (.lds i v) s = .next ((s.writeS i v).respond 0) := by
  simp only [exec, execLds, ifUnlocked_of_unlocked _ h]

theorem exec_rds (i : Pos) : exec (.rds i) s = .next (s.respond (s.readS i)) := by
  simp only [exec, execRds, ifUnlocked_of_unlocked _ h]

theorem exec_rdw (i : Pos) : exec (.rdw i) s = .next (s.respond (s.readW i)) := by
  simp only [exec, execRdw, ifUnlocked_of_unlocked _ h]

theorem exec_rdkb (j : ByteIdx) : exec (.rdkb j) s = .next (s.respondKey (s.readKB j)) := by
  simp only [exec, execRdkb, ifUnlocked_of_unlocked _ h]

theorem exec_rdkw (i : Pos) : exec (.rdkw i) s = .next (s.respondKey (s.readKW i)) := by
  simp only [exec, execRdkw, ifUnlocked_of_unlocked _ h]

end unlocked

theorem exec_rdst (s : State) : exec .rdst s = .next (s.respond (statusWord s)) := rfl

/-- Under lockout a command that is not `RDST` answers the state with a refusal given out. -/
theorem exec_of_locked (i : Instr) (h : s.ERR = true) (hi : i ≠ .rdst) : exec i s = .next s.refuse := by
  cases i <;>
    first
    | exact absurd rfl hi
    | simp only [exec, execAddw, execXorw, execRolw, execQr, execColr, execDiagr, execDblr, execMix, execInit, execFfwd,
        execSer, execBlock, execLds, execRds, execRdw, execRdkb, execRdkw, ifUnlocked_of_locked _ h]

/-- Everything a command can do on a CORE that is not locked out: which arrays and flags it may change. -/
theorem exec_fields (i : Instr) (h : s.ERR = false) :
    ∃ t, exec i s = .next t ∧ t.inputs = s.inputs ∧
      (t.S = s.S ∨ ∃ j v, i = .lds j v ∧ t.S = s.S.set j v) ∧
      (t.W = s.W ∨
        i.opcode ∈ [Opcode.init, .addw, .xorw, .rolw, .qr, .colr, .diagr, .dblr, .mix, .ffwd, .block]) ∧
      ((t.KB = s.KB ∧ t.KVALID = s.KVALID) ∨ ((i = .ser ∨ i = .block) ∧ t.KVALID = true)) ∧
      ((t.ERR = false ∧ t.ERRCODE = s.ERRCODE) ∨ (t.ERR = true ∧ ∃ c, t.ERRCODE = .cause c)) := by
  cases i with
  | addw a b => exact ⟨_, exec_addw h a b, by simp, by simp, by simp [Instr.opcode], by simp, by simp [h]⟩
  | xorw a b => exact ⟨_, exec_xorw h a b, by simp, by simp, by simp [Instr.opcode], by simp, by simp [h]⟩
  | rolw a n =>
    by_cases hn : n = 0
    · subst hn; exact ⟨_, exec_rolw_zero h a, by simp, by simp, by simp, by simp, by simp [h]⟩
    · exact ⟨_, exec_rolw h a n hn, by simp, by simp, by simp [Instr.opcode], by simp, by simp [h]⟩
  | qr a b c d =>
    by_cases hd : PositionsDistinct a b c d
    · exact ⟨_, exec_qr h a b c d hd, by simp, by simp, by simp [Instr.opcode], by simp, by simp [h]⟩
    · exact ⟨_, exec_qr_repeated h a b c d hd, by simp, by simp, by simp, by simp, by simp [h]⟩
  | colr => exact ⟨_, exec_colr h, by simp, by simp, by simp [Instr.opcode], by simp, by simp [h]⟩
  | diagr => exact ⟨_, exec_diagr h, by simp, by simp, by simp [Instr.opcode], by simp, by simp [h]⟩
  | dblr => exact ⟨_, exec_dblr h, by simp, by simp, by simp [Instr.opcode], by simp, by simp [h]⟩
  | mix => exact ⟨_, exec_mix h, by simp, by simp, by simp [Instr.opcode], by simp, by simp [h]⟩
  | init => exact ⟨_, exec_init h, by simp, by simp, by simp [Instr.opcode], by simp, by simp [h]⟩
  | ffwd => exact ⟨_, exec_ffwd h, by simp, by simp, by simp [Instr.opcode], by simp, by simp [h]⟩
  | ser => exact ⟨_, exec_ser h, by simp, by simp, by simp, by simp, by simp [h]⟩
  | block => exact ⟨_, exec_block h, by simp, by simp, by simp [Instr.opcode], by simp, by simp [h]⟩
  | lds j v => exact ⟨_, exec_lds h j v, by simp, by simp, by simp, by simp, by simp [h]⟩
  | rds j => exact ⟨_, exec_rds h j, by simp, by simp, by simp, by simp, by simp [h]⟩
  | rdw j => exact ⟨_, exec_rdw h j, by simp, by simp, by simp, by simp, by simp [h]⟩
  | rdst => exact ⟨_, exec_rdst s, by simp, by simp, by simp, by simp, by simp [h]⟩
  | rdkb j =>
    refine ⟨_, exec_rdkb h j, ?_⟩
    rcases (Bool.eq_false_or_eq_true s.KVALID).symm with hk | hk
    · simp [respondKey_of_invalid _ hk, h]
    · simp [respondKey_of_valid _ hk, h]
  | rdkw j =>
    refine ⟨_, exec_rdkw h j, ?_⟩
    rcases (Bool.eq_false_or_eq_true s.KVALID).symm with hk | hk
    · simp [respondKey_of_invalid _ hk, h]
    · simp [respondKey_of_valid _ hk, h]

/-- The next state of a list of commands, one command at a time. -/
theorem execList_cons_of_next {i : Instr} {is : List Instr} {t : State} (h : exec i s = .next t) :
    execList (i :: is) s = execList is t := by
  simp [execList, h]

theorem execList_append {is js : List Instr} {t : State} (h : execList is s = .next t) :
    execList (is ++ js) s = execList js t := by
  induction is generalizing s with
  | nil => simp only [execList] at h; cases h; rfl
  | cons i is ih =>
    cases hi : exec i s with
    | next u => rw [List.cons_append, execList_cons_of_next hi]; rw [execList_cons_of_next hi] at h; exact ih h
    | fault f => simp [execList, hi] at h
    | refused r => simp [execList, hi] at h

end Sys2Proof.Machine
end

