-- ==== Sys2Proof/Laws/Host.lean ====
section
/-! SUPPORT. The host's functions, said once: when a call is rejected, what a stream's start and one piece can answer, and
what feeding bytes does to the counter and the unused bytes. -/

namespace Sys2Proof.Machine

theorem pickError_mem (e : HostError) (es : List HostError) (n : Nat) : pickError e es n ∈ e :: es := by
  unfold pickError
  rw [List.getD_eq_getElem _ _ (by simpa using Nat.mod_lt n (Nat.succ_pos es.length))]
  exact List.getElem_mem _

theorem lengthErrors_eq_nil {key nonce : List Byte} :
    lengthErrors key nonce = [] ↔ key.length = 32 ∧ nonce.length = 12 := by
  unfold lengthErrors; split <;> split <;> simp_all

theorem mem_lengthErrors {key nonce : List Byte} {e : HostError} :
    e ∈ lengthErrors key nonce ↔
      (e = .invalidKeyLength ∧ key.length ≠ 32) ∨ (e = .invalidNonceLength ∧ nonce.length ≠ 12) := by
  unfold lengthErrors; split <;> split <;> simp_all

theorem streamErrors_eq_nil {key nonce : List Byte} {c0 : Word} {len : Nat} :
    streamErrors key nonce c0 len = [] ↔
      (key.length = 32 ∧ nonce.length = 12) ∧ c0.toNat + blocksNeeded len ≤ 2 ^ 32 := by
  unfold streamErrors
  rw [List.append_eq_nil_iff, lengthErrors_eq_nil]
  split <;> simp_all

/-- With no byte to come only the lengths can be wrong: a 32-bit counter value is below the limit. -/
theorem streamErrors_zero (key nonce : List Byte) (c0 : Word) :
    streamErrors key nonce c0 0 = lengthErrors key nonce := by
  have h : ¬ c0.toNat + blocksNeeded 0 > 2 ^ 32 := by have := c0.isLt; simp only [blocksNeeded]; omega
  rw [streamErrors, if_neg h, List.append_nil]

theorem xorStream_eq_ok {key nonce : List Byte} {c0 : Word} {input output : List Byte} :
    xorStream key nonce c0 input = .ok output ↔
      streamErrors key nonce c0 input.length = [] ∧
        output = input.mapIdx fun p b => b ^^^ keystreamByte key nonce c0.toNat p := by
  unfold xorStream
  cases h : streamErrors key nonce c0 input.length <;> simp [eq_comm]

namespace HostStream

variable {h : HostStream}

/-- A stream starts exactly when both lengths are right. -/
theorem start_of_lengths {key nonce : List Byte} (c0 : Word) (hk : key.length = 32) (hn : nonce.length = 12) :
    start key nonce c0 = .ok { key := key, nonce := nonce, counter := c0.toNat, unused := [] } := by
  rw [start, streamErrors_zero, lengthErrors_eq_nil.2 ⟨hk, hn⟩]

theorem feed_of_room {piece : List Byte} (hr : h.counter + h.newBlocks piece.length ≤ 2 ^ 32) :
    h.feed piece = .ok (h.feedBytes piece) := by
  rw [feed, if_neg (Nat.not_lt.2 hr)]

theorem feed_of_overflow {piece : List Byte} (hr : h.counter + h.newBlocks piece.length > 2 ^ 32) :
    h.feed piece = .error .counterOverflow := by
  rw [feed, if_pos hr]

theorem feedBytes_append (xs ys : List Byte) :
    h.feedBytes (xs ++ ys) =
      ((h.feedBytes xs).1 ++ ((h.feedBytes xs).2.feedBytes ys).1, ((h.feedBytes xs).2.feedBytes ys).2) := by
  induction xs generalizing h with
  | nil => simp [feedBytes]
  | cons x xs ih => simp [feedBytes, ih]

/-- Feeding bytes makes the new blocks it needs and no more, and leaves the rest of the last one unused. -/
theorem feedBytes_counter_unused (xs : List Byte) :
    (h.feedBytes xs).2.counter = h.counter + h.newBlocks xs.length ∧
      (h.feedBytes xs).2.unused.length = h.unused.length + 64 * h.newBlocks xs.length - xs.length := by
  induction xs generalizing h with
  | nil => simp [feedBytes, newBlocks, blocksNeeded]
  | cons x xs ih =>
    have hr : h.ready.counter = h.counter + (if h.unused.length = 0 then 1 else 0) ∧
        h.ready.unused.length = (if h.unused.length = 0 then 64 else h.unused.length) := by
      unfold ready
      by_cases hu : h.unused = []
      · simp [hu, refill]
      · simp [hu, List.isEmpty_iff]
    simp only [feedBytes, newBlocks, blocksNeeded, List.length_cons]
    generalize hg : ({ h.ready with unused := h.ready.unused.tail } : HostStream) = r
    have hc : r.counter = h.counter + (if h.unused.length = 0 then 1 else 0) := by rw [← hg]; exact hr.1
    have hl : r.unused.length = (if h.unused.length = 0 then 64 else h.unused.length) - 1 := by
      rw [← hg, ← hr.2]; exact List.length_tail
    have hi := @ih r
    simp only [newBlocks, blocksNeeded, hc, hl] at hi
    split_ifs at hi <;> omega

/-- Two pieces take the new blocks that the same bytes take at once. -/
theorem newBlocks_append (xs ys : List Byte) :
    h.newBlocks (xs ++ ys).length = h.newBlocks xs.length + (h.feedBytes xs).2.newBlocks ys.length := by
  have hu := (feedBytes_counter_unused (h := h) xs).2
  simp only [newBlocks, blocksNeeded, List.length_append] at hu ⊢
  omega

end HostStream

end Sys2Proof.Machine
end

