-- ==== Sys2Proof/Laws/Lanes.lean ====
section
/-! SUPPORT. Vectors read and written by an index of the right range, and the lanes of a quarter round: read after
write, and nothing else changes. -/

namespace Sys2Proof.Machine

theorem vector_ext {α : Type} {n : Nat} {v w : Vector α n} (h : ∀ k : Fin n, v[k] = w[k]) : v = w :=
  Vector.ext fun i hi => h ⟨i, hi⟩

theorem vector_set_getElem {α : Type} {n : Nat} (v : Vector α n) (p k : Fin n) (x : α) :
    (v.set p x)[k] = if p = k then x else v[k] := by
  simp [Vector.getElem_set, Fin.ext_iff]

theorem vector_set_self {α : Type} {n : Nat} (v : Vector α n) (p : Fin n) (x : α) : (v.set p x)[p] = x := by
  simp

theorem vector_set_ne {α : Type} {n : Nat} (v : Vector α n) {p k : Fin n} (x : α) (h : k ≠ p) :
    (v.set p x)[k] = v[k] := by
  rw [vector_set_getElem, if_neg (Ne.symm h)]

theorem vector_ofFn_getElem {α : Type} {n : Nat} (f : Fin n → α) (k : Fin n) : (Vector.ofFn f)[k] = f k := by
  simp

/-- What every position reads after four words are written back. -/
theorem writeLane_getElem (st : Words16) (q : Quad) (x : Lane) (k : Pos) :
    (writeLane st q x)[k] =
      if q.d = k then x.d else if q.c = k then x.c else if q.b = k then x.b else if q.a = k then x.a else st[k] := by
  simp only [writeLane, vector_set_getElem]

theorem readLane_writeLane (st : Words16) (q : Quad) (x : Lane) : readLane (writeLane st q x) q = x := by
  obtain ⟨hab, hac, had, hbc, hbd, hcd⟩ := q.distinct
  simp only [readLane, writeLane_getElem, if_neg hab.symm, if_neg hac.symm, if_neg had.symm, if_neg hbc.symm,
    if_neg hbd.symm, if_neg hcd.symm, if_true]

theorem writeLane_of_ne (st : Words16) (q : Quad) (x : Lane) (k : Pos) (ha : k ≠ q.a) (hb : k ≠ q.b) (hc : k ≠ q.c)
    (hd : k ≠ q.d) : (writeLane st q x)[k] = st[k] := by
  simp only [writeLane_getElem, if_neg ha.symm, if_neg hb.symm, if_neg hc.symm, if_neg hd.symm]

theorem writeLane_readLane (st : Words16) (q : Quad) : writeLane st q (readLane st q) = st := by
  refine vector_ext fun k => ?_
  rw [writeLane_getElem]
  split_ifs <;> first | rfl | (subst_vars; rfl)

theorem writeLane_writeLane (st : Words16) (q : Quad) (x y : Lane) :
    writeLane (writeLane st q x) q y = writeLane st q y := by
  refine vector_ext fun k => ?_
  simp only [writeLane_getElem]
  split_ifs <;> rfl

/-- Two groups with no position in common (42_state_mixer.md R114). -/
def Quad.Disjoint (p q : Quad) : Prop :=
  ∀ k : Pos, (k = p.a ∨ k = p.b ∨ k = p.c ∨ k = p.d) → k ≠ q.a ∧ k ≠ q.b ∧ k ≠ q.c ∧ k ≠ q.d

theorem readLane_writeLane_of_disjoint (st : Words16) (p q : Quad) (x : Lane) (h : p.Disjoint q) :
    readLane (writeLane st q x) p = readLane st p := by
  have ha := h p.a (.inl rfl)
  have hb := h p.b (.inr (.inl rfl))
  have hc := h p.c (.inr (.inr (.inl rfl)))
  have hd := h p.d (.inr (.inr (.inr rfl)))
  simp only [readLane, writeLane_of_ne _ _ _ _ ha.1 ha.2.1 ha.2.2.1 ha.2.2.2,
    writeLane_of_ne _ _ _ _ hb.1 hb.2.1 hb.2.2.1 hb.2.2.2, writeLane_of_ne _ _ _ _ hc.1 hc.2.1 hc.2.2.1 hc.2.2.2,
    writeLane_of_ne _ _ _ _ hd.1 hd.2.1 hd.2.2.1 hd.2.2.2]

end Sys2Proof.Machine
end

