-- ==== Sys2Proof/Laws/Mixer.lean ====
section
/-! SUPPORT. The mixer and the serializer: the groups of a pass are disjoint, a pass is its groups one after another, a
run of passes split in two, the events of a run by index, and the bytes of a serialized state. -/

namespace Sys2Proof.Machine

/-- The four groups of a pass have no position in common (42_state_mixer.md R114). -/
theorem groups_pairwise_disjoint (k : PassKind) : k.groups.Pairwise fun p q => p.Disjoint q ∧ q.Disjoint p := by
  cases k <;> (unfold Quad.Disjoint; decide)

theorem runPass_eq_foldl (k : PassKind) (st : Words16) : runPass k st = k.groups.foldl qrs st := by cases k <;> rfl

theorem doubleRound_eq (st : Words16) : doubleRound st = runPass .diagonal (runPass .column st) := by
  rw [doubleRound, runPass, runPass]

theorem mixF_eq (st : Words16) : mixF st = doubleRound^[10] st := by rw [mixF]

theorem blockF_eq (st : Words16) : blockF st = serialize (feedFwd (mixF st) st) := by rw [blockF]

/-- A run of passes in two parts: the index goes on counting. -/
theorem runPasses_append (ks ls : List PassKind) (p : BitVec 5) (w : Words16) :
    runPasses (ks ++ ls) p w =
      ((runPasses ls (p + BitVec.ofNat 5 ks.length) (runPasses ks p w).1).1,
        (runPasses ks p w).2 ++ (runPasses ls (p + BitVec.ofNat 5 ks.length) (runPasses ks p w).1).2) := by
  induction ks generalizing p w with
  | nil => simp [runPasses]
  | cons k ks ih =>
    have : p + 1 + BitVec.ofNat 5 ks.length = p + BitVec.ofNat 5 (ks.length + 1) := by
      rw [BitVec.add_assoc]; congr 1; apply BitVec.eq_of_toNat_eq; simp; omega
    simp only [List.cons_append, runPasses, ih, List.length_cons, this]

/-- What a run of passes leaves in `W`. -/
theorem runPasses_fst (ks : List PassKind) (p : BitVec 5) (w : Words16) :
    (runPasses ks p w).1 = ks.foldl (fun w k => runPass k w) w := by
  induction ks generalizing p w with
  | nil => rfl
  | cons k ks ih => rw [runPasses, ih]; rfl

/-- The events of a run of passes by their number. -/
theorem runPasses_getElem? (ks : List PassKind) (p : BitVec 5) (w : Words16) (k : Nat) :
    (runPasses ks p w).2[k]? = ks[k]?.map fun kind =>
      ({ idx := p + BitVec.ofNat 5 k, kind := kind,
         snapshot := (ks.take (k + 1)).foldl (fun w k => runPass k w) w } : Event) := by
  induction ks generalizing p w k with
  | nil => simp [runPasses]
  | cons a ks ih =>
    cases k with
    | zero => simp [runPasses]
    | succ k =>
      have : p + 1 + BitVec.ofNat 5 k = p + BitVec.ofNat 5 (k + 1) := by
        rw [BitVec.add_assoc]; congr 1; apply BitVec.eq_of_toNat_eq; simp; omega
      simp only [runPasses, List.getElem?_cons_succ, ih, this]
      rfl

theorem runPasses_length (ks : List PassKind) (p : BitVec 5) (w : Words16) :
    (runPasses ks p w).2.length = ks.length := by
  induction ks generalizing p w with
  | nil => rfl
  | cons k ks ih => rw [runPasses]; simp [ih]

theorem byteOf_toNat (w : Word) (k : Nat) : (byteOf w k).toNat = bits w (8 * k + 7) (8 * k) := by
  simp only [byteOf, bits, BitVec.extractLsb'_toNat, Nat.shiftRight_eq_div_pow]
  congr 2
  omega

theorem serialize_getElem (st : Words16) (i : Pos) (k : Fin 4) :
    (serialize st)[4 * i.val + k.val] = byteOf st[i] k.val := by
  simp only [serialize, Vector.getElem_ofFn]
  have h1 : (4 * i.val + k.val) / 4 = i.val := by omega
  have h2 : (4 * i.val + k.val) % 4 = k.val := by omega
  simp only [h1, h2]
  rfl

end Sys2Proof.Machine
end

