-- ==== Sys2Proof/Laws/PerInstr.lean ====
section
/-! SUPPORT. The statements made once per command: one family, `EncodedFields`, about the encoding of a command. -/

namespace Sys2Proof.Laws.EncodedFields

/-- The encoded command word has the command's opcode in bits 31:24, 0 in the reserved field, 0 in every reserved bit of
its operand field, and the operand field in bits 15:0 (30_encoding.md R61, R62). -/
def Statement (i : Instr) : Prop :=
  bits (encode i).cmd 31 24 = i.opcode.code ∧ bits (encode i).cmd 23 16 = 0 ∧
    i.opcode.format.argReservedClear (encode i).cmd = true ∧ bits (encode i).cmd 15 0 = i.arg

/-- Three of the four parts hold of every command alike. -/
theorem of_reservedClear {i : Instr} (h : i.opcode.format.argReservedClear (encode i).cmd = true) : Statement i := by
  have h1 := i.arg_lt
  have h2 := i.opcode.code_lt
  refine ⟨?_, ?_, h, ?_⟩ <;> simp only [bits, encode_cmd_toNat] <;> omega

theorem addw (pd ps : Pos) : Statement (.addw pd ps) := by
  have h := encode_cmd_toNat (.addw pd ps)
  refine of_reservedClear ?_
  simp only [Instr.opcode, Opcode.format, Format.argReservedClear, bits, h, Instr.arg, Opcode.code, beq_iff_eq]
  omega

theorem xorw (pd ps : Pos) : Statement (.xorw pd ps) := by
  have h := encode_cmd_toNat (.xorw pd ps)
  refine of_reservedClear ?_
  simp only [Instr.opcode, Opcode.format, Format.argReservedClear, bits, h, Instr.arg, Opcode.code, beq_iff_eq]
  omega

theorem rolw (pd : Pos) (n : Fin 32) : Statement (.rolw pd n) := by
  have h := encode_cmd_toNat (.rolw pd n)
  refine of_reservedClear ?_
  simp only [Instr.opcode, Opcode.format, Format.argReservedClear, bits, h, Instr.arg, Opcode.code, Bool.and_eq_true,
    beq_iff_eq]
  omega

theorem qr (a b c d : Pos) : Statement (.qr a b c d) := of_reservedClear rfl

theorem colr : Statement .colr := of_reservedClear (by decide)

theorem diagr : Statement .diagr := of_reservedClear (by decide)

theorem dblr : Statement .dblr := of_reservedClear (by decide)

theorem mix : Statement .mix := of_reservedClear (by decide)

theorem init : Statement .init := of_reservedClear (by decide)

theorem ffwd : Statement .ffwd := of_reservedClear (by decide)

theorem ser : Statement .ser := of_reservedClear (by decide)

theorem block : Statement .block := of_reservedClear (by decide)

theorem lds (i : Pos) (v : Word) : Statement (.lds i v) := by
  have h := encode_cmd_toNat (.lds i v)
  refine of_reservedClear ?_
  simp only [Instr.opcode, Opcode.format, Format.argReservedClear, bits, h, Instr.arg, Opcode.code, beq_iff_eq]
  omega

theorem rds (i : Pos) : Statement (.rds i) := by
  have h := encode_cmd_toNat (.rds i)
  refine of_reservedClear ?_
  simp only [Instr.opcode, Opcode.format, Format.argReservedClear, bits, h, Instr.arg, Opcode.code, beq_iff_eq]
  omega

theorem rdw (i : Pos) : Statement (.rdw i) := by
  have h := encode_cmd_toNat (.rdw i)
  refine of_reservedClear ?_
  simp only [Instr.opcode, Opcode.format, Format.argReservedClear, bits, h, Instr.arg, Opcode.code, beq_iff_eq]
  omega

theorem rdkb (j : ByteIdx) : Statement (.rdkb j) := by
  have h := encode_cmd_toNat (.rdkb j)
  refine of_reservedClear ?_
  simp only [Instr.opcode, Opcode.format, Format.argReservedClear, bits, h, Instr.arg, Opcode.code, beq_iff_eq]
  omega

theorem rdkw (i : Pos) : Statement (.rdkw i) := by
  have h := encode_cmd_toNat (.rdkw i)
  refine of_reservedClear ?_
  simp only [Instr.opcode, Opcode.format, Format.argReservedClear, bits, h, Instr.arg, Opcode.code, beq_iff_eq]
  omega

theorem rdst : Statement .rdst := of_reservedClear (by decide)

end Sys2Proof.Laws.EncodedFields
end

