-- ==== Sys2Proof/Laws/Step.lean ====
section
/-! SUPPORT. What accepting a command and one step can do, said once. -/

namespace Sys2Proof.Machine

/-- An accepted command is refused under lockout, illegal, or run, and always on the state it was accepted in. -/
theorem accept_cases (cmd d : Word) (t : State) :
    (t.ERR = true ∧ bits cmd 31 24 ≠ Opcode.rdst.code ∧ accept cmd d t = .lockedOut t) ∨
    ((t.ERR = false ∨ bits cmd 31 24 = Opcode.rdst.code) ∧
      ((∃ e, decode cmd d = .error e ∧ accept cmd d t = .illegal (causeOf e) t) ∨
        ∃ i, decode cmd d = .ok i ∧ accept cmd d t = .run i t)) := by
  unfold accept
  by_cases hc : (t.ERR && bits cmd 31 24 != Opcode.rdst.code) = true
  · rw [if_pos hc]
    simp only [Bool.and_eq_true, bne_iff_ne] at hc
    exact .inl ⟨hc.1, hc.2, rfl⟩
  · rw [if_neg hc]
    refine .inr ⟨?_, ?_⟩
    · cases h : t.ERR
      · exact .inl rfl
      · simpa [h] using hc
    · cases decode cmd d with
      | error e => exact .inl ⟨e, rfl, rfl⟩
      | ok i => exact .inr ⟨i, rfl, rfl⟩

/-- With nothing presented the step changes nothing. -/
theorem step_idle {s : State} (h : s.inputs = []) : step s = .next s := by
  simp only [step, fetch, h]

/-- The step on the reset input. -/
theorem step_reset {s : State} {rest : List HostInput} (h : s.inputs = .reset :: rest) :
    step s = .next (State.applyReset { s with inputs := rest }) := by
  simp only [step, fetch, h]

/-- The step on a command that is refused under lockout. -/
theorem step_of_lockedOut {s : State} {cmd d : Word} {rest : List HostInput} (h : s.inputs = .command cmd d :: rest)
    (ha : accept cmd d { s with inputs := rest } = .lockedOut { s with inputs := rest }) :
    step s = .next (State.refuse { s with inputs := rest }) := by
  simp only [step, fetch, h, ha]

/-- The step on an illegal command word. -/
theorem step_of_illegal {s : State} {cmd d : Word} {rest : List HostInput} {c : Cause}
    (h : s.inputs = .command cmd d :: rest)
    (ha : accept cmd d { s with inputs := rest } = .illegal c { s with inputs := rest }) :
    step s = .next (raiseFault c { s with inputs := rest }) := by
  simp only [step, fetch, h, ha]

/-- The step on a command word that spells a command. -/
theorem step_of_run {s : State} {cmd d : Word} {rest : List HostInput} {i : Instr}
    (h : s.inputs = .command cmd d :: rest)
    (ha : accept cmd d { s with inputs := rest } = .run i { s with inputs := rest }) :
    step s = exec i { s with inputs := rest } := by
  simp only [step, fetch, h, ha]

end Sys2Proof.Machine
end

