-- ==== Sys2Proof/Tests/Slice0.lean ====
section
/-! SUPPORT. The model's own tests: ill-formed commands, words decoded, one step per command, host functions, and one
witness for the hypotheses of every statement that has some. Expected values are the spec's, 95_test_vectors.md. -/

namespace Sys2Proof.Tests

open Sys2Proof Sys2Proof.Machine

/-- 16 words from a list, 0 where the list ends. -/
def words (l : List Word) : Words16 := Vector.ofFn fun i => l.getD i.val 0

/-- A freshly reset CORE with given words in both files. -/
def withWords (s w : List Word) : State := { State.reset with S := words s, W := words w }

/-- The next state, if there is one. -/
def nextState : Result → Option State
  | .next t => some t
  | .fault _ => none
  | .refused _ => none

/-- One step on a presented command. -/
def stepOn (s : State) (cmd : Word) (cmdData : Word := 0) : Option State :=
  nextState (step (s.present (.command cmd cmdData)))

/-- The last response, if the last output is one. -/
def answer (t : State) : Option (Word × Bool) := (lastResponse t.outputs).map fun r => (r.data, r.err)

/-- The observer events as (idx, kind). -/
def eventList (t : State) : List (Nat × Nat) := (observed true t.outputs).map fun e => (e.idx.toNat, e.kind.bit.toNat)

/-- Words 0 to 3 of the zero-key state of 95_test_vectors.md section 3.1; its other words are 0. -/
def zeroKey : List Word := [0x61707865, 0x3320646e, 0x79622d32, 0x6b206574]

/-- A CORE that holds the first keystream bytes of section 3.1. -/
def withBlock : State :=
  { State.reset with
    KB := Vector.ofFn fun j => ([0x76, 0xb8, 0xe0, 0xad] : List Byte).getD j.val (if j.val = 63 then 0x86 else 0)
    KVALID := true }

/-- A CORE that has taken fault 3 with words in its files, as program D of section 4 leaves it. -/
def lockedOut : State := raiseFault .qrPositionsNotDistinct (withWords [0xdeadbeef] [0xdeadbeef])

/-! ### Ill-formed commands (WellFormed) -/

theorem test_rolw_zero_is_ill_formed : (Instr.rolw 1 0).wellFormed = false := by decide
theorem test_qr_a_eq_b_is_ill_formed : (Instr.qr 0 0 1 2).wellFormed = false := by decide
theorem test_qr_a_eq_d_is_ill_formed : (Instr.qr 0 4 8 0).wellFormed = false := by decide
theorem test_qr_b_eq_c_is_ill_formed : (Instr.qr 5 6 6 7).wellFormed = false := by decide
theorem test_qr_distinct_is_well_formed : (Instr.qr 15 14 13 12).wellFormed = true := by decide
theorem test_ill_formed_commands_fault :
    (stepOn (withWords [] zeroKey) 0x10000480).map (fun t => (t.ERRCODE.code, t.W == words zeroKey, answer t)) =
      some (3, true, some (0, true)) ∧
    (stepOn (withWords [] zeroKey) 0x03000010).map (fun t => (t.ERRCODE.code, t.W == words zeroKey, answer t)) =
      some (4, true, some (0, true)) := by decide

/-! ### Decoding: words written out bit by bit from the patterns of 30_encoding.md R63 -/

theorem test_decode_addw : decode 0b00000001000000000000000000110001 7 = .ok (.addw 3 1) := by decide
theorem test_decode_xorw : decode 0b00000010000000000000000011110000 7 = .ok (.xorw 15 0) := by decide
theorem test_decode_rolw : decode 0b00000011000000000001111100010000 7 = .ok (.rolw 1 31) := by decide
theorem test_decode_qr : decode 0b00010000000000000010011110001101 7 = .ok (.qr 2 7 8 13) := by decide
theorem test_decode_colr : decode 0b00100000000000000000000000000000 7 = .ok .colr := by decide
theorem test_decode_diagr : decode 0b00100001000000000000000000000000 7 = .ok .diagr := by decide
theorem test_decode_dblr : decode 0b00100010000000000000000000000000 7 = .ok .dblr := by decide
theorem test_decode_mix : decode 0b00100011000000000000000000000000 7 = .ok .mix := by decide
theorem test_decode_init : decode 0b00110000000000000000000000000000 7 = .ok .init := by decide
theorem test_decode_ffwd : decode 0b00110001000000000000000000000000 7 = .ok .ffwd := by decide
theorem test_decode_ser : decode 0b00110010000000000000000000000000 7 = .ok .ser := by decide
theorem test_decode_block : decode 0b00110011000000000000000000000000 7 = .ok .block := by decide
theorem test_decode_lds : decode 0b01000000000000000000000000001100 1 = .ok (.lds 12 1) := by decide
theorem test_decode_rds : decode 0b01000001000000000000000000001100 7 = .ok (.rds 12) := by decide
theorem test_decode_rdw : decode 0b01000010000000000000000000001001 7 = .ok (.rdw 9) := by decide
theorem test_decode_rdkb : decode 0b01000011000000000000000000101011 7 = .ok (.rdkb 43) := by decide
theorem test_decode_rdkw : decode 0b01000100000000000000000000000110 7 = .ok (.rdkw 6) := by decide
theorem test_decode_rdst : decode 0b01000101000000000000000000000000 7 = .ok .rdst := by decide

/-- Section 2.6: opcodes that are none of the eighteen. -/
theorem test_decode_illegal_opcode :
    ([0x00000000, 0xffffffff, 0x04000000, 0x46000000] : List Word).all (fun w =>
      decide (decode w 0 = .error .illegalOpcode)) = true := by decide +kernel

/-- Sections 2.6 and 60_exceptions.md R204: a reserved bit set, one of them beside an operand fault of its own. -/
theorem test_decode_reserved :
    ([0x20000001, 0x20010000, 0x10ff0000, 0x0300ff00, 0x01000100, 0x03002010, 0x03000011, 0x40000010, 0x43000040] :
      List Word).all (fun w => decide (decode w 0 = .error .reservedNonzero)) = true := by decide +kernel

theorem test_decodeTableWord :
    decodeTableWord 32 0x10000123 = some (.qr 0 1 2 3) ∧ decodeTableWord 32 0x00000000 = none ∧
      decodeTableWord 64 0x000000014000000c = some (.lds 12 1) ∧ decodeTableWord 32 0x4000000c = some (.lds 12 0) := by
  decide +kernel

theorem test_withFetchWord_runs_first :
    nextState (step (State.reset.withFetchWord 64 0xdeadbeef40000000)) = some { State.reset with
      S := State.reset.S.set 0 0xdeadbeef, outputs := [.response { data := 0, err := false }] } := by decide +kernel

/-! ### Word arithmetic (section 2.1) -/

theorem test_add32 :
    add32 1 0xffffffff = 0 ∧ add32 0xffffffff 0xffffffff = 0xfffffffe ∧ add32 0xdeadbeef 0x12345678 = 0xf0e21567 := by
  decide
theorem test_xor32 : xor32 1 0xffffffff = 0xfffffffe ∧ xor32 0xdeadbeef 0x12345678 = 0xcc99e897 := by decide
theorem test_rotl32 :
    rotl32 0x80000000 ⟨1, by decide⟩ = 1 ∧ rotl32 1 ⟨31, by decide⟩ = 0x80000000 ∧ rotl32 0x12345678 rot16 = 0x56781234 ∧
      rotl32 0x12345678 rot12 = 0x45678123 ∧ rotl32 0x12345678 rot8 = 0x34567812 ∧
      rotl32 0x12345678 rot7 = 0x1a2b3c09 := by decide
theorem test_rotl32Block : rotl32Block 0x12345678 4 = 0x23456781 := by decide

theorem test_addw : (stepOn (withWords [] [0x11111111, 0x01020304]) 0x01000001).map (·.W) =
    some (words [0x12131415, 0x01020304]) := by decide
theorem test_addw_doubles : (stepOn (withWords [] [0x11111111, 0x01020304]) 0x01000000).map (·.W) =
    some (words [0x22222222, 0x01020304]) := by decide
theorem test_xorw : (stepOn (withWords [] [0, 0x01020304, 0, 0x01234567]) 0x02000031).map (·.W) =
    some (words [0, 0x01020304, 0, 0x00214663]) := by decide
theorem test_xorw_clears : (stepOn (withWords [] [0, 0x01020304, 0, 0x01234567]) 0x02000033).map (·.W) =
    some (words [0, 0x01020304]) := by decide
theorem test_rolw : (stepOn (withWords [] [0, 0x01020304]) 0x03000c10).map (·.W) =
    some (words [0, 0x20304010]) := by decide
theorem test_rolw_31 : (stepOn (withWords [] [0, 0x01020304]) 0x03001f10).map (·.W) =
    some (words [0, 0x00810182]) := by decide

/-! ### Quarter round (sections 2.2 and 2.3) -/

theorem test_qrf : quarterRoundBlock 0x11111111 0x01020304 0x9b8d6f43 0x01234567 =
    { a := 0xea2a92f4, b := 0xcb1cf8ce, c := 0x4581472e, d := 0x5881c4bb } := by decide
theorem test_qrf_every_addition_wraps : quarterRoundBlock 0xffffffff 0xffffffff 0xffffffff 0xffffffff =
    { a := 0xf0000ffd, b := 0x88790878, c := 0x0110fdef, d := 0x010ffdf0 } := by decide
theorem test_qr : (stepOn (withWords []
      [0x879531e0, 0xc5ecf37d, 0x516461b1, 0xc9a62f8a, 0x44c20ef3, 0x3390af7f, 0xd9fc690b, 0x2a5f714c,
       0x53372767, 0xb00a5631, 0x974c541a, 0x359e9963, 0x5c971061, 0x3d631689, 0x2098d9d6, 0x91dbd320])
      0x1000278d).map (·.W) = some (words
      [0x879531e0, 0xc5ecf37d, 0xbdb886dc, 0xc9a62f8a, 0x44c20ef3, 0x3390af7f, 0xd9fc690b, 0xcfacafd2,
       0xe46bea80, 0xb00a5631, 0x974c541a, 0x359e9963, 0x5c971061, 0xccc07c79, 0x2098d9d6, 0x91dbd320]) := by decide
theorem test_qr_position_order : (stepOn (withWords [] zeroKey) 0x1000408c).map
    (fun t => (t.W[0], t.W[4], t.W[8], t.W[12])) = some (0x4e5cd546, 0xb301c9f6, 0xdd0de83b, 0x64a886cb) := by decide

/-! ### Passes, the schedule, the block function (sections 2.4, 2.5, 3.1) -/

/-- Pass 0 of section 3.1. -/
def passZero : List Word :=
  [0xb7877feb, 0x16526ab4, 0xa0f85005, 0xb1d26bcb, 0x4a7d5c86, 0xfae0ea21, 0x66e11e68, 0xe3a851a6,
   0x5a83fd3f, 0xa0c7c792, 0xf75be0ef, 0x0b7556f4, 0xe21e9bcf, 0x3c599472, 0xca29678d, 0xa600ebd4]

theorem test_colr : (stepOn (withWords [] zeroKey) 0x20000000).map (fun t => (t.W, t.outputs)) =
    some (words passZero, [.event { idx := 0, kind := .column, snapshot := words passZero },
      .response { data := 0, err := false }]) := by decide
theorem test_diagr : (stepOn (withWords [] zeroKey) 0x21000000).map (fun t => (t.W, eventList t)) = some (words
      [0xb7877feb, 0x16526ab4, 0xa0f85005, 0xb1d26bcb, 0xe3a851a6, 0x4a7d5c86, 0xfae0ea21, 0x66e11e68,
       0xf75be0ef, 0x0b7556f4, 0x5a83fd3f, 0xa0c7c792, 0x3c599472, 0xca29678d, 0xa600ebd4, 0xe21e9bcf],
      [(0, 1)]) := by decide
theorem test_dblr : (stepOn (withWords [] zeroKey) 0x22000000).map (fun t => (t.W[0], t.W[15], eventList t)) =
    some (0xe45fd249, 0x87c62165, [(0, 0), (1, 1)]) := by decide +kernel
theorem test_mix : (stepOn (withWords [] zeroKey) 0x23000000).map (fun t => (t.W[0], t.W[12], (eventList t).length)) =
    some (0x4c704011, 0xf4b8436a, 20) := by decide +kernel
theorem test_mix_snapshots : ((nextState (exec .mix (withWords [] zeroKey))).map fun t =>
    (observed true t.outputs).map fun e => e.snapshot[0]) = some
      [0xb7877feb, 0xe45fd249, 0x9c2fe493, 0xb20e0da6, 0x13f7fb89, 0x0287a2a1, 0x345e4165, 0xce7e87d9,
       0x5141c3a6, 0x4e03490c, 0xfa61c55f, 0x092a7c36, 0x6b44e4ed, 0x6ddf4b98, 0x03e54529, 0xf6eb4385,
       0x45d0c1e8, 0x0a49d0bb, 0x7cdc780b, 0x4c704011] := by decide +kernel
theorem test_units_agree : passWithUnits .two .column (words zeroKey) = words passZero := by decide +kernel
theorem test_init : (stepOn (withWords zeroKey passZero) 0x30000000).map (fun t => (t.W, t.S)) =
    some (words zeroKey, words zeroKey) := by decide
theorem test_ffwd : (stepOn (withWords [0x61707865, 0xffffffff] [0x4c704011, 2]) 0x31000000).map (·.W) =
    some (words [0xade0b876, 1]) := by decide
/-- Section 2.5: the string "expand 32-byte k". -/
theorem test_ser : (stepOn (withWords [] zeroKey) 0x32000000).map (fun t => (t.KB.toList.take 17, t.KVALID)) =
    some ([0x65, 0x78, 0x70, 0x61, 0x6e, 0x64, 0x20, 0x33, 0x32, 0x2d, 0x62, 0x79, 0x74, 0x65, 0x20, 0x6b, 0x00],
      true) := by decide
/-- Section 3.1. -/
theorem test_block_zero_key : (stepOn (withWords zeroKey passZero) 0x33000000).map (fun t => t.KB.toList) = some
    [0x76, 0xb8, 0xe0, 0xad, 0xa0, 0xf1, 0x3d, 0x90, 0x40, 0x5d, 0x6a, 0xe5, 0x53, 0x86, 0xbd, 0x28,
     0xbd, 0xd2, 0x19, 0xb8, 0xa0, 0x8d, 0xed, 0x1a, 0xa8, 0x36, 0xef, 0xcc, 0x8b, 0x77, 0x0d, 0xc7,
     0xda, 0x41, 0x59, 0x7c, 0x51, 0x57, 0x48, 0x8d, 0x77, 0x24, 0xe0, 0x3f, 0xb8, 0xd8, 0x4a, 0x37,
     0x6a, 0x43, 0xb8, 0xf4, 0x15, 0x18, 0xa1, 0x1c, 0xc3, 0x87, 0xb6, 0x69, 0xb2, 0xee, 0x65, 0x86] := by
  decide +kernel
/-- Section 3.2. -/
theorem test_block_nonzero_key : (stepOn (withWords
      [0x61707865, 0x3320646e, 0x79622d32, 0x6b206574, 0x03020100, 0x07060504, 0x0b0a0908, 0x0f0e0d0c,
       0x13121110, 0x17161514, 0x1b1a1918, 0x1f1e1d1c, 0x00000001, 0x09000000, 0x4a000000, 0x00000000] [])
      0x33000000).map (fun t => ([t.W[0], t.W[13]], [t.KB[0], t.KB[63]], eventList t)) =
    some ([0xe4e7f110, 0xb94e16de], [0x10, 0x4e], (List.range 20).map fun p => (p, p % 2)) := by decide +kernel

/-! ### State access, status, faults, lockout, reset (sections 2.6, 4 programs C and D) -/

theorem test_lds : (stepOn (withWords zeroKey passZero) 0x4000000c 1).map (fun t => (t.S[12], t.S[0], t.W)) =
    some (1, 0x61707865, words passZero) := by decide
theorem test_rds : (stepOn (withWords zeroKey []) 0x41000003).map answer = some (some (0x6b206574, false)) := by decide
theorem test_rdw : (stepOn (withWords [] passZero) 0x4200000f).map answer = some (some (0xa600ebd4, false)) := by decide
theorem test_rdkb : (stepOn withBlock 0x43000003).map answer = some (some (0x000000ad, false)) ∧
    (stepOn withBlock 0x4300003f).map answer = some (some (0x00000086, false)) := by decide
theorem test_rdkb_invalid : (stepOn State.reset 0x43000000).map (fun t => (statusWord t, answer t)) =
    some (0x52, some (0, true)) := by decide
theorem test_rdkw : (stepOn withBlock 0x44000000).map answer = some (some (0xade0b876, false)) ∧
    (stepOn withBlock 0x4400000f).map answer = some (some (0x86000000, false)) := by decide
theorem test_rdkw_invalid : (stepOn State.reset 0x44000000).map (fun t => (statusWord t, answer t)) =
    some (0x52, some (0, true)) := by decide
theorem test_rdst : (stepOn State.reset 0x45000000).map answer = some (some (0, false)) ∧
    (stepOn withBlock 0x45000000).map answer = some (some (1, false)) := by decide
theorem test_rdst_under_lockout : (stepOn lockedOut 0x45000000).map answer = some (some (0x32, false)) := by decide
/-- Program D: `RDW 0`, `BLOCK`, `ROLW 0, 0`, a malformed `RDST` and an illegal word, all refused with no change. -/
theorem test_lockout : ([0x42000000, 0x33000000, 0x03000000, 0x45000001, 0x00000000] : List Word).all (fun w =>
    (stepOn lockedOut w).map (fun t => (t.W[0], t.KVALID, statusWord t, answer t)) =
      some (0xdeadbeef, false, 0x32, some (0, true))) = true := by decide +kernel
/-- 60_exceptions.md R204: code 2 before code 3, code 2 before code 4, code 1 first. -/
theorem test_fault_priority :
    (stepOn State.reset 0x10ff0000).map statusWord = some 0x22 ∧ (stepOn State.reset 0x0300ff00).map statusWord = some 0x22 ∧
      (stepOn State.reset 0x03000000).map statusWord = some 0x42 ∧ (stepOn State.reset 0x00000000).map statusWord = some 0x12 := by
  decide
theorem test_reset : (nextState (step (lockedOut.present .reset))).map (fun t => { t with outputs := [] }) =
    some State.reset := by decide

/-! ### The host's functions and the pins -/

theorem test_init_state : (initState (List.replicate 32 0) 0 (List.replicate 12 0)).toOption = some (words zeroKey) := by
  decide
/-- 45_host_contract.md R183: a 31-byte key. -/
theorem test_init_state_short_key : initState (List.replicate 31 0) 0 (List.replicate 12 0) = .error .invalidKeyLength := by
  unfold initState
  rw [show lengthErrors (List.replicate 31 0) (List.replicate 12 0) = [.invalidKeyLength] by decide]
  simp [pickError, Nat.mod_one]
theorem test_counter_limit :
    streamErrors (List.replicate 32 0) (List.replicate 12 0) 0xffffffff 64 = [] ∧
      streamErrors (List.replicate 32 0) (List.replicate 12 0) 0xffffffff 65 = [.counterOverflow] := by decide
/-- Section 2.8: byte 64 of the boundary scenario is 40 XOR 9f. -/
theorem test_second_block_byte :
    keystreamByte (List.replicate 32 0) (List.replicate 12 0) 0 64 = 0x9f := by decide +kernel

/-- The stream of the zero key and nonce from counter 0, if it starts, fed two pieces: both outputs and the counter. -/
def inTwoPieces (c0 : Word) (xs ys : List Byte) : Option (List Byte × List Byte × Nat) := do
  let h ← (HostStream.start (List.replicate 32 0) (List.replicate 12 0) c0).toOption
  let r ← (h.feed xs).toOption
  let r' ← (r.2.feed ys).toOption
  return (r.1, r'.1, r'.2.counter)

/-- Section 2.8: bytes 0 and 1, one at a time, from one block. -/
theorem test_stream_in_pieces : inTwoPieces 0 [0x00] [0x01] = some ([0x76], [0xb9], 1) := by decide +kernel
/-- Section 2.8: from counter ffffffff one block is there, and the piece that needs a second is rejected. -/
theorem test_stream_overflow :
    (inTwoPieces 0xffffffff [0x00] (List.replicate 63 0)).isSome = true ∧
      inTwoPieces 0xffffffff [0x00] (List.replicate 64 0) = none := by decide +kernel
/-- 45_host_contract.md R183: a 31-byte key starts no stream. -/
theorem test_stream_short_key :
    HostStream.start (List.replicate 31 0) (List.replicate 12 0) 0 = .error .invalidKeyLength := by
  unfold HostStream.start
  rw [show streamErrors (List.replicate 31 0) (List.replicate 12 0) 0 0 = [.invalidKeyLength] by decide]
  simp [pickError, Nat.mod_one]

/-- The shortest timing the spec allows for the passes of any command: one pass a cycle, the response with the last. -/
def shortest : Timing where
  lat opc := passCount opc + 1
  obsAt _ k := k + 1
  lat_pos _ := by omega
  obs_after_acceptance _ := by omega
  obs_increasing _ _ := by omega
  obs_by_response _ _ h := by omega

/-- A CORE one cycle after reset, ready for a command. -/
def ready (s : State) : Clocked :=
  { core := s, flight := none, cmdReady := true, rsp := none, obs := none, resetCycle := false }

/-- The host holds `DBLR` on the command port. -/
def dblrHeld : Nat → PinIn := fun _ => { rst := false, cmdValid := true, cmd := 0x22000000, cmdData := 0 }

theorem test_dblr_on_the_pins :
    ((ready (withWords [] zeroKey)).after shortest dblrHeld 3).obs.map (fun e => (e.idx, e.snapshot[0])) =
      some (1, 0xe45fd249) ∧
    ((ready (withWords [] zeroKey)).after shortest dblrHeld 4).rsp = some { data := 0, err := false } ∧
    ((ready (withWords [] zeroKey)).after shortest dblrHeld 4).core.W[0] = 0xe45fd249 := by decide +kernel

theorem test_assembly : assembly (.lds 12 1) = "LDS 12, 0x00000001" ∧ assembly (.qr 0 4 8 12) = "QR 0, 4, 8, 12" := by
  decide +kernel

/-! ### A witness for the hypotheses of every statement that has some -/

/-- A CORE that is not locked out, with words in both files. -/
def running : State := withWords zeroKey passZero

/-- The running CORE with a command presented. -/
def given (cmd : Word) (cmdData : Word := 0) : State := running.present (.command cmd cmdData)

theorem witness_ResetLeadsToResetState : (lockedOut.present .reset).inputs = .reset :: lockedOut.inputs := by decide
theorem witness_Rotl32MovesEveryBit :
    ∃ n m : RotAmount, n.val.val = 31 ∧ m.val.val = 1 ∧ m.val.val + n.val.val = 32 :=
  ⟨⟨31, by decide⟩, ⟨1, by decide⟩, by decide⟩
theorem witness_AddwAddsIntoOneWorkingWord : running.Unlocked ∧ (1 : Pos) ≠ 15 := by decide
theorem witness_XorwXorsIntoOneWorkingWord : running.Unlocked ∧ (1 : Pos) ≠ 15 ∧ (15 : Pos) = 15 := by decide
theorem witness_ColrAndDiagrRunOnePass : running.Unlocked := by decide
theorem witness_DblrRunsOneDoubleRound : running.Unlocked := by decide
theorem witness_MixRunsTheFullSchedule : running.Unlocked := by decide
theorem witness_PassScheduleOfEveryCommand : running.Unlocked := by decide
theorem witness_InitCopiesInitialState : running.Unlocked := by decide
theorem witness_FfwdAddsInitialState : running.Unlocked := by decide
theorem witness_SerSerializesWorkingState : running.Unlocked := by decide
theorem witness_BlockComputesBlockFunction : running.Unlocked := by decide
theorem witness_BlockEqualsItsFourSteps : running.Unlocked := by decide
theorem witness_LdsLoadsOneInitialWord : running.Unlocked ∧ (0 : Pos) ≠ 15 := by decide
theorem witness_RdsAndRdwReadOneWord : running.Unlocked := by decide
theorem witness_LdstateLoadsAllSixteenWords : running.Unlocked := by decide
theorem witness_RolwRotatesOneWorkingWord :
    running.Unlocked ∧ (0 : Fin 32) = 0 ∧ (1 : Fin 32) ≠ 0 ∧ (31 : Fin 32) ≠ 0 ∧ (1 : Pos) ≠ 0 := by decide
theorem witness_QuarterRoundChangesOnlyItsFourPositions :
    PositionsDistinct 0 4 8 12 ∧ (15 : Pos) ≠ 0 ∧ (15 : Pos) ≠ 4 ∧ (15 : Pos) ≠ 8 ∧ (15 : Pos) ≠ 12 := by decide
theorem witness_QrRunsOnDistinctPositionsOnly :
    running.Unlocked ∧ PositionsDistinct 15 14 13 12 ∧ ¬ PositionsDistinct 0 4 8 0 := by decide
theorem witness_QrEqualsTwelveArithmeticCommands : running.Unlocked ∧ PositionsDistinct 15 14 13 12 := by decide
theorem witness_PassIsOrderIndependent :
    PassKind.diagonal.groups.reverse.Perm PassKind.diagonal.groups ∧
      (⟨3, 4, 9, 14, by decide⟩ : Quad) ∈ PassKind.diagonal.groups := ⟨List.reverse_perm _, by decide⟩
theorem witness_BlockDependsOnInitialStateAlone :
    running.Unlocked ∧ (withWords zeroKey []).Unlocked ∧ running.S = (withWords zeroKey []).S ∧
      running.W ≠ (withWords zeroKey []).W := by decide
theorem witness_WordAndByteViewsOfKeystreamAgree :
    withBlock.Unlocked ∧ withBlock.KVALID = true ∧ (63 : ByteIdx).val = 4 * (15 : Pos).val + (3 : Fin 4).val ∧
      Instr.block ∈ [Instr.ser, Instr.block] := by decide
theorem witness_KeystreamReadsNeedAValidBlock :
    withBlock.Unlocked ∧ withBlock.KVALID = true ∧ running.Unlocked ∧ running.KVALID = false := by decide
theorem witness_legal : withBlock.Legal := ⟨by decide, by decide⟩
theorem witness_RdstRespondsStatusWord : withBlock.Legal := witness_legal
theorem witness_FaultEntryWritesErrAndErrcodeOnly :
    running.Unlocked ∧ ¬ PositionsDistinct 5 6 6 7 ∧ running.KVALID = false := by decide
theorem witness_IllegalCommandWordsFault :
    running.Unlocked ∧
    ((given 0xffffffff).inputs = .command 0xffffffff 0 :: [] ∧ ∀ o : Opcode, o.code ≠ bits 0xffffffff 31 24) ∧
    ((given 0x20000001).inputs = .command 0x20000001 0 :: [] ∧ Opcode.colr.code = bits 0x20000001 31 24 ∧
      (0x20000001 : Word) &&& Opcode.colr.maskWord ≠ Opcode.colr.matchWord) ∧
    ((given 0x4300003f).inputs = .command 0x4300003f 0 :: [] ∧
      (0x4300003f : Word) &&& Opcode.rdkb.maskWord = Opcode.rdkb.matchWord) :=
  ⟨rfl, ⟨rfl, fun o => by cases o <;> decide⟩, ⟨rfl, by decide, by decide⟩, rfl, by decide⟩
theorem witness_LockoutRefusesAllButRdst :
    (lockedOut.present (.command 0x45000000 0)).inputs = .command 0x45000000 0 :: [] ∧
    (lockedOut.present (.command 0x45010000 0)).inputs = .command 0x45010000 0 :: [] ∧
    (lockedOut.present (.command 0x45010000 0)).ERR = true ∧ (0x45010000 : Word) ≠ 0x45000000 :=
  ⟨rfl, rfl, by decide, by decide⟩
theorem witness_EveryCommandReadsErrFirst : lockedOut.ERR = true ∧ Instr.block ≠ .rdst := by decide
theorem witness_OnlyResetClearsErrAndKvalid :
    (∃ t, step (given 0x30000000) = .next t) ∧ (∀ rest, (given 0x30000000).inputs ≠ .reset :: rest) ∧
      (∃ t, step (lockedOut.present (.command 0x30000000 0)) = .next t) ∧
      (lockedOut.present (.command 0x30000000 0)).ERR = true ∧
      (∃ t, step (withBlock.present (.command 0x30000000 0)) = .next t) ∧
      (withBlock.present (.command 0x30000000 0)).KVALID = true ∧
      (∃ t, step (lockedOut.present .reset) = .next t) ∧
      ∃ rest, (lockedOut.present .reset).inputs = .reset :: rest :=
  ⟨⟨_, rfl⟩, (fun _ h => by cases h), ⟨_, rfl⟩, by decide, ⟨_, rfl⟩, rfl, ⟨_, rfl⟩, _, rfl⟩
/-- `LDS` changes `S`, `SER` changes `KB` and `KVALID`, `INIT` changes `W`. -/
theorem witness_OnlyNamedCommandsWriteEachArray :
    ((stepOn running 0x4000000c 1).map fun t => decide (t.S ≠ running.S)) = some true ∧
    ((stepOn running 0x32000000).map fun t => (decide (t.KB ≠ running.KB), decide (t.KVALID ≠ running.KVALID))) =
      some (true, true) ∧
    ((stepOn running 0x30000000).map fun t => decide (t.W ≠ running.W)) = some true := by decide +kernel
theorem witness_StepKeepsLegalState :
    (withBlock.present .reset).Legal ∧ ∃ t, step (withBlock.present .reset) = .next t :=
  ⟨⟨by decide, by decide⟩, _, rfl⟩
theorem witness_EveryCommandGetsOneResponse : (given 0xffffffff 7).inputs = .command 0xffffffff 7 :: [] := rfl
theorem witness_OutputsNeverActOnTheCore : ∃ t, step (given 0x30000000) = .next t := ⟨_, rfl⟩
theorem witness_StepRunsTheDecodedCommand :
    (given 0x1000fedc).inputs = .command 0x1000fedc 0 :: [] ∧ decode 0x1000fedc 0 = .ok (.qr 15 14 13 12) ∧
      running.inputs = [] ∧ (running.present .reset).inputs = .reset :: [] := ⟨rfl, by decide, rfl, rfl⟩
theorem witness_DecodedWordsAreTheEncodersWords :
    decode 0x4000000f 0xffffffff = .ok (.lds 15 0xffffffff) ∧ (Instr.lds 15 0xffffffff).opcode = .lds ∧
      decode 0x4300003f 7 = .ok (.rdkb 63) ∧ (Instr.rdkb 63).opcode ≠ .lds := by decide
theorem witness_MatchAndMaskSpellTheCommands :
    (0x03001ff0 : Word) &&& Opcode.rolw.maskWord = Opcode.rolw.matchWord ∧
      decode 0x03001ff0 0 = .ok (.rolw 15 31) ∧ (Instr.rolw 15 31).opcode = .rolw := by decide
theorem witness_PinsCarryTheCommandLevelStep :
    (ready running).flight = none ∧ (ready running).cmdReady = true ∧ (dblrHeld 0).cmdValid = true ∧
      ∀ n, (dblrHeld n).rst = false := ⟨rfl, rfl, rfl, fun _ => rfl⟩
theorem witness_ResetEdgeAbandonsTheCommand :
    ((ready running).edge shortest (dblrHeld 0)).flight.isSome = true ∧
      ({ dblrHeld 0 with rst := true } : PinIn).rst = true ∧ (dblrHeld 1).rst = false := by decide
theorem witness_InitStateBuildsTheSixteenWords :
    ((List.replicate 32 (0 : Byte)).length = 32 ∧ (List.replicate 12 (0 : Byte)).length = 12) ∧
      ¬ ((List.replicate 31 (0 : Byte)).length = 32 ∧ (List.replicate 13 (0 : Byte)).length = 12) := by decide
theorem witness_XorStreamRejectsBeforeTheCounterWraps :
    (0xffffffff : Word).toNat + ((List.replicate 64 (0 : Byte)).length + 63) / 64 ≤ 2 ^ 32 ∧
      ¬ (0xffffffff : Word).toNat + ((List.replicate 65 (0 : Byte)).length + 63) / 64 ≤ 2 ^ 32 := by decide
/-- Section 2.8: the second byte of the boundary scenario is 01 XOR b8. -/
theorem witness_XorStreamIsAnInvolution :
    (xorStream (List.replicate 32 0) (List.replicate 12 0) 0 [0x00, 0x01]).toOption = some [0x76, 0xb9] := by
  decide +kernel
theorem witness_XorStreamXorsTheKeystream :
    (xorStream (List.replicate 32 0) (List.replicate 12 0) 0xffffffff [0x00]).toOption.isSome = true ∧
      (List.replicate 32 (0 : Byte)).length = 32 ∧ (List.replicate 12 (0 : Byte)).length = 12 := by decide +kernel
/-- Each clause: a call that succeeds on bytes, a wrong length, and the first input that crosses the limit. -/
theorem witness_StreamingEqualsXorStream :
    (xorStream (List.replicate 32 0) (List.replicate 12 0) 0 [0x00, 0x01]).toOption = some [0x76, 0xb9] ∧
      ¬ ((List.replicate 32 (0 : Byte)).length = 32 ∧ (List.replicate 13 (0 : Byte)).length = 12) ∧
      (List.replicate 32 (0 : Byte)).length = 32 ∧ (List.replicate 12 (0 : Byte)).length = 12 ∧
      (0xffffffff : Word).toNat + ((List.replicate 65 (0 : Byte)).length + 63) / 64 > 2 ^ 32 := by decide +kernel
theorem witness_LoadThenBlockGivesTheBlockFunction :
    running.Unlocked ∧ (List.finRange 16).reverse.Perm (List.finRange 16) ∧
      running.S = initWords (List.replicate 32 0) 0 (List.replicate 12 0) :=
  ⟨rfl, List.reverse_perm _, by decide⟩

end Sys2Proof.Tests
end

section
/-! PROOFS. The statements about the state (10_state.md): reset, what one step may change, and that every step keeps the
legality of the state. -/

namespace Sys2Proof.Machine

/-- `LDS` carries the data operand of the command port (30_encoding.md R60). -/
theorem data_eq_of_decode_lds {cmd d v : Word} {j : Pos} (h : decode cmd d = .ok (.lds j v)) : v = d := by
  obtain ⟨o, -, -, ho⟩ := decode_eq_ok.1 h
  obtain rfl : o = .lds := by simpa [ho, Instr.opcode] using (o.opcode_assemble cmd d).symm
  cases ho
  rfl

theorem decode_eq_ok_of_toOption {cmd d : Word} {i : Instr} (h : (decode cmd d).toOption = some i) :
    decode cmd d = .ok i := by
  cases hd : decode cmd d with
  | error e => simp [hd, Except.toOption] at h
  | ok j => simpa [hd, Except.toOption] using h

/-- What a command may change of the state tuple, where `i?` is the instruction its word spells, none for an illegal
word: each array and flag is as before, or `i?` is one of the commands that write it (R20, R21, R24 to R27). -/
structure State.MayChange (i? : Option Instr) (s t : State) : Prop where
  initial : t.S = s.S ∨ ∃ j v, i? = some (.lds j v) ∧ t.S = s.S.set j v
  working : t.W = s.W ∨ ∃ i, i? = some i ∧
    i.opcode ∈ [Opcode.init, .addw, .xorw, .rolw, .qr, .colr, .diagr, .dblr, .mix, .ffwd, .block]
  keystream : (t.KB = s.KB ∧ t.KVALID = s.KVALID) ∨ ((i? = some .ser ∨ i? = some .block) ∧ t.KVALID = true)
  error : (t.ERR = s.ERR ∧ t.ERRCODE = s.ERRCODE) ∨ (s.ERR = false ∧ t.ERR = true ∧ ∃ c, t.ERRCODE = .cause c)

section mayChange

variable {i? : Option Instr} {s t : State}

theorem mayChange_refuse (s : State) : s.MayChange i? s.refuse :=
  ⟨.inl rfl, .inl rfl, .inl ⟨rfl, rfl⟩, .inl ⟨rfl, rfl⟩⟩

theorem mayChange_respond (s : State) (v : Word) : s.MayChange i? (s.respond v) :=
  ⟨.inl rfl, .inl rfl, .inl ⟨rfl, rfl⟩, .inl ⟨rfl, rfl⟩⟩

theorem mayChange_raiseFault (c : Cause) (s : State) : s.MayChange i? (raiseFault c s) where
  initial := .inl (raiseFault_S c s)
  working := .inl (raiseFault_W c s)
  keystream := .inl ⟨raiseFault_KB c s, raiseFault_KVALID c s⟩
  error := by cases h : s.ERR <;> simp [h]

/-- A command that runs, locked out or not. -/
theorem mayChange_of_exec {i : Instr} (h : exec i s = .next t) : s.MayChange (some i) t := by
  cases hs : s.ERR with
  | false =>
    obtain ⟨u, hu, -, hS, hW, hK, hE⟩ := exec_fields i hs
    obtain rfl : u = t := by simpa [hu] using h
    exact ⟨by simpa using hS, by simpa using hW, by simpa using hK, by simpa [hs] using hE⟩
  | true =>
    by_cases hi : i = .rdst
    · subst hi
      obtain rfl : s.respond (statusWord s) = t := by simpa [exec_rdst] using h
      exact mayChange_respond s _
    · obtain rfl : s.refuse = t := by simpa [exec_of_locked i hs hi] using h
      exact mayChange_refuse s

/-- One step on a command, legal or not. -/
theorem mayChange_of_step {cmd d : Word} {rest : List HostInput} (hin : s.inputs = .command cmd d :: rest)
    (h : step s = .next t) : s.MayChange (decode cmd d).toOption t := by
  suffices State.MayChange (decode cmd d).toOption { s with inputs := rest } t from
    ⟨this.initial, this.working, this.keystream, this.error⟩
  obtain ⟨-, -, ha⟩ | ⟨-, ⟨e, -, ha⟩ | ⟨i, hi, ha⟩⟩ := accept_cases cmd d { s with inputs := rest }
  · cases (step_of_lockedOut hin ha).symm.trans h
    exact mayChange_refuse _
  · cases (step_of_illegal hin ha).symm.trans h
    exact mayChange_raiseFault _ _
  · rw [hi]
    exact mayChange_of_exec ((step_of_run hin ha).symm.trans h)

/-- A fault sets `ERR` and `ERRCODE` together, and `KB` is written only together with `KVALID`. -/
theorem State.Legal.of_mayChange (hs : s.Legal) (h : s.MayChange i? t) : t.Legal where
  errcode := by
    obtain ⟨hE, hC⟩ | ⟨-, hE, c, hC⟩ := h.error
    · rw [hE, hC]; exact hs.errcode
    · simp [hE, hC]
  buffer hK := by
    obtain ⟨hB, hV⟩ | ⟨-, hV⟩ := h.keystream
    · rw [hB]; exact hs.buffer (hV ▸ hK)
    · simp [hV] at hK

end mayChange

theorem reset_legal : State.reset.Legal := ⟨by decide, fun _ => rfl⟩

theorem applyReset_legal (s : State) : s.applyReset.Legal := ⟨reset_legal.errcode, reset_legal.buffer⟩

/-- Settles O1: each part is a constant of the reset state. -/
theorem resetStateIsAllZero : Obligations.ResetStateIsAllZero := by
  unfold Obligations.ResetStateIsAllZero
  refine ⟨?_, ?_, ?_, rfl, rfl, rfl, by decide, rfl, rfl⟩ <;> intro i <;> simp [State.reset]

/-- Settles O40: both parts of the invariant are constants of the reset state. -/
theorem resetStateIsLegal : Obligations.ResetStateIsLegal := reset_legal

/-- Settles O39: an idle step changes nothing, reset leads to a legal state, and what a command may change keeps both
parts of the invariant. -/
theorem stepKeepsLegalState : Obligations.StepKeepsLegalState := by
  intro s t hs h
  match hin : s.inputs with
  | [] => cases (step_idle hin).symm.trans h; exact hs
  | .reset :: rest => cases (step_reset hin).symm.trans h; exact applyReset_legal _
  | .command cmd d :: rest => exact hs.of_mayChange (mayChange_of_step hin h)

/-- Settles O38: an idle step changes nothing, and a command changes an array only as `State.MayChange` allows. -/
theorem onlyNamedCommandsWriteEachArray : Obligations.OnlyNamedCommandsWriteEachArray := by
  intro s t h hreset
  match hin : s.inputs with
  | [] => cases (step_idle hin).symm.trans h; simp
  | .reset :: rest => exact absurd hin (hreset rest)
  | .command cmd d :: rest =>
    have hc := mayChange_of_step hin h
    refine ⟨fun hS => ?_, fun hK => ?_, fun hW => ?_⟩
    · obtain ⟨j, v, hi, ht⟩ := hc.initial.resolve_left hS
      have hd := decode_eq_ok_of_toOption hi
      obtain rfl := data_eq_of_decode_lds hd
      exact ⟨cmd, v, rest, j, rfl, hd, ht⟩
    · obtain ⟨hi | hi, -⟩ := hc.keystream.resolve_left (not_and_or.2 hK)
      · exact ⟨cmd, d, rest, .ser, rfl, decode_eq_ok_of_toOption hi, .inl rfl⟩
      · exact ⟨cmd, d, rest, .block, rfl, decode_eq_ok_of_toOption hi, .inr rfl⟩
    · obtain ⟨i, hi, ho⟩ := hc.working.resolve_left hW
      exact ⟨cmd, d, rest, i, rfl, decode_eq_ok_of_toOption hi, ho⟩

end Sys2Proof.Machine
end

section
/-! PROOFS. The statements about words, bytes and responses (20_memory.md): the observer bus, the byte and word views
of the keystream buffer, what `BLOCK` depends on, and one response per accepted command. -/

namespace Sys2Proof.Machine

/-! ### The observer bus (R45) -/

/-- The bus value before it is cut to 512 bits: the words as digits of base `2^32`, word 0 the lowest. -/
def busDigits (w : Words16) : List Nat := w.toList.map BitVec.toNat

theorem busDigits_lt (w : Words16) : ∀ d ∈ busDigits w, d < 2 ^ 32 := by
  simp only [busDigits, List.mem_map]
  rintro _ ⟨x, -, rfl⟩
  exact x.isLt

theorem busDigits_length (w : Words16) : (busDigits w).length = 16 := by
  rw [busDigits, List.length_map, Vector.length_toList]

theorem obsStateBus_toNat (w : Words16) : (obsStateBus w).toNat = Nat.ofDigits (2 ^ 32) (busDigits w) := by
  have hlt : Nat.ofDigits (2 ^ 32) (busDigits w) < 2 ^ 512 := by
    rw [show 512 = 32 * (busDigits w).length by rw [busDigits_length], pow_mul]
    exact Nat.ofDigits_lt_base_pow_length (by decide) (busDigits_lt w)
  have hbus : obsStateBus w = BitVec.ofNat 512 (Nat.ofDigits (2 ^ 32) (busDigits w)) := by
    rw [obsStateBus, busDigits, Nat.ofDigits_eq_foldr, List.foldr_map]; rfl
  simp only [hbus, BitVec.toNat_ofNat, Nat.mod_eq_of_lt hlt]

/-- Settles O51: word i is digit i of the bus value in base `2^32`. -/
theorem observerBusHoldsWordsInOrder : Obligations.ObserverBusHoldsWordsInOrder := by
  intro w i
  have hi : i.val < (busDigits w).length := by rw [busDigits_length]; exact i.isLt
  apply BitVec.eq_of_toNat_eq
  calc ((obsStateBus w).extractLsb' (32 * i.val) 32).toNat
      = Nat.ofDigits (2 ^ 32) (busDigits w) / (2 ^ 32) ^ i.val % 2 ^ 32 := by
        rw [BitVec.extractLsb'_toNat, obsStateBus_toNat, Nat.shiftRight_eq_div_pow, pow_mul]
    _ = Nat.ofDigits (2 ^ 32) ((busDigits w)[i.val] :: (busDigits w).drop (i.val + 1)) % 2 ^ 32 := by
        rw [Nat.ofDigits_div_pow_eq_ofDigits_drop i.val (by decide) _ (busDigits_lt w),
          List.drop_eq_getElem_cons hi]
    _ = (busDigits w)[i.val] := by
        rw [Nat.ofDigits_cons, Nat.add_mul_mod_self_left]
        exact Nat.mod_eq_of_lt (busDigits_lt w _ (List.getElem_mem hi))
    _ = w[i].toNat := by simp [busDigits]

/-! ### Words and their bytes (R42 to R44) -/

/-- Byte k of the word `LE32` makes of four bytes is the k-th of them. -/
theorem byteOf_le32 (b0 b1 b2 b3 : Byte) (k : Fin 4) : byteOf (le32 b0 b1 b2 b3) k.val = #v[b0, b1, b2, b3][k] := by
  apply BitVec.eq_of_toNat_eq
  rw [byteOf_toNat, bits, le32, BitVec.toNat_ofNat]
  match k with
  | 0 | 1 | 2 | 3 => simp; omega

/-- `LE32` of the four bytes of a word gives the word back. -/
theorem le32_byteOf (w : Word) : le32 (byteOf w 0) (byteOf w 1) (byteOf w 2) (byteOf w 3) = w := by
  apply BitVec.eq_of_toNat_eq
  simp only [le32, BitVec.toNat_ofNat, byteOf_toNat, bits]
  omega

/-- A word is its four bytes. -/
theorem word_eq_of_bytes {v w : Word} (h : ∀ k < 4, byteOf v k = byteOf w k) : v = w := by
  rw [← le32_byteOf v, h 0 (by decide), h 1 (by decide), h 2 (by decide), h 3 (by decide), le32_byteOf]

theorem readKB_toNat (s : State) (j : ByteIdx) : (s.readKB j).toNat = s.KB[j.val].toNat :=
  BitVec.toNat_setWidth_of_le (by decide)

/-- The byte view of the word view of the buffer. -/
theorem byteOf_readKW (s : State) (i : Pos) (k : Fin 4) : byteOf (s.readKW i) k.val = s.KB[4 * i.val + k.val] := by
  rw [State.readKW, byteOf_le32]
  match k with
  | 0 | 1 | 2 | 3 => rfl

/-- The word view of a buffer that holds a serialized state. -/
theorem readKW_of_serialized {s : State} {w : Words16} (h : s.KB = serialize w) (i : Pos) : s.readKW i = w[i] := by
  refine word_eq_of_bytes fun k hk => ?_
  rw [byteOf_readKW s i ⟨k, hk⟩]
  simpa only [h] using serialize_getElem w i ⟨k, hk⟩

/-! ### What a command answers -/

section answers

variable {s : State}

theorem answers_respond (s : State) (v : Word) : s.Answers (s.respond v) [] { data := v, err := false } := by
  simp [State.Answers]

theorem answers_refuse (s : State) : s.Answers s.refuse [] { data := 0, err := true } := by
  simp [State.Answers]

theorem answers_raiseFault (c : Cause) (s : State) :
    s.Answers (raiseFault c s) [] { data := 0, err := true } := by
  simp [State.Answers]

/-- A read of the word view with a valid block. -/
theorem exec_rdkw_of_valid (h : s.ERR = false) (hk : s.KVALID = true) (i : Pos) :
    exec (.rdkw i) s = .next (s.respond (s.readKW i)) := by
  rw [exec_rdkw h, respondKey_of_valid _ hk]

/-- A read of the byte view with a valid block. -/
theorem exec_rdkb_of_valid (h : s.ERR = false) (hk : s.KVALID = true) (j : ByteIdx) :
    exec (.rdkb j) s = .next (s.respond (s.readKB j)) := by
  rw [exec_rdkb h, respondKey_of_valid _ hk]

/-- Everything `BLOCK` leaves and gives, said of `S` alone (R55). -/
theorem exec_block_result (h : s.ERR = false) :
    ∃ t, exec .block s = .next t ∧ t.W = feedFwd (runPasses mixPasses 0 s.S).1 s.S ∧ t.KB = serialize t.W ∧
      t.KVALID = true ∧ t.ERR = false ∧
      s.Answers t (runPasses mixPasses 0 s.S).2 { data := 0, err := false } :=
  ⟨_, exec_block h, by simp, by simp, by simp, by simp [h], by simp [State.Answers]⟩

/-- After `SER` or `BLOCK` the buffer holds the bytes of `W`, and the CORE goes on. -/
theorem exec_serializes (h : s.ERR = false) {c : Instr} (hc : c ∈ [Instr.ser, Instr.block]) :
    ∃ t, exec c s = .next t ∧ t.KB = serialize t.W ∧ t.KVALID = true ∧ t.ERR = false := by
  obtain rfl | rfl : c = .ser ∨ c = .block := by simpa using hc
  · exact ⟨_, exec_ser h, by simp, by simp, by simp [h]⟩
  · obtain ⟨t, ht, -, hKB, hK, hE, -⟩ := exec_block_result h
    exact ⟨t, ht, hKB, hK, hE⟩

end answers

/-- Settles O26: `exec_block_result` names nothing of the state before but `S`. -/
theorem blockDependsOnInitialStateAlone : Obligations.BlockDependsOnInitialStateAlone := by
  intro s₁ s₂ h₁ h₂ hS
  obtain ⟨t₁, ht₁, hW₁, hKB₁, hK₁, -, ha₁⟩ := exec_block_result h₁
  obtain ⟨t₂, ht₂, hW₂, hKB₂, hK₂, -, ha₂⟩ := exec_block_result h₂
  rw [← hS] at hW₂ ha₂
  have hW : t₁.W = t₂.W := hW₁.trans hW₂.symm
  exact ⟨t₁, t₂, _, ht₁, ht₂, hW, by rw [hKB₁, hKB₂, hW], hK₁.trans hK₂.symm, ha₁, ha₂⟩

/-- Settles O28: the bytes of the word view are the bytes of the buffer, and `LE32` undoes the serializer. -/
theorem wordAndByteViewsOfKeystreamAgree : Obligations.WordAndByteViewsOfKeystreamAgree := by
  refine ⟨fun s i k j h hk hj => ?_, fun s i h c hc => ?_⟩
  · refine ⟨_, _, s.readKW i, s.readKB j, exec_rdkw_of_valid h hk i, exec_rdkb_of_valid h hk j, rfl,
      answers_respond s _, answers_respond s _, ?_⟩
    rw [← byteOf_toNat, byteOf_readKW, readKB_toNat]
    simp only [hj]
  · obtain ⟨t, ht, hKB, hK, hE⟩ := exec_serializes h hc
    refine ⟨t, _, ht, exec_rdkw_of_valid hE hK i, ?_⟩
    rw [readKW_of_serialized hKB]
    exact answers_respond t _

/-! ### One response per accepted command (R50, R156) -/

/-- From s to t the CORE has given events numbered 0, 1, 2, ... and then one response, and a refusing response has data 0
and no event. -/
def State.AnswersOnce (s t : State) : Prop :=
  ∃ es r, s.Answers t es r ∧ es.map (·.idx.toNat) = List.range es.length ∧ (r.err = true → r.data = 0 ∧ es = [])

/-- A run of at most 32 passes from index 0 numbers its events 0, 1, 2, ... -/
theorem runPasses_idx (ks : List PassKind) (w : Words16) (hk : ks.length ≤ 32) :
    (runPasses ks 0 w).2.map (·.idx.toNat) = List.range (runPasses ks 0 w).2.length := by
  rw [runPasses_length]
  refine List.ext_getElem? fun n => ?_
  rw [List.getElem?_map, runPasses_getElem?]
  by_cases hn : n < ks.length
  · have : n % 32 = n := Nat.mod_eq_of_lt (by omega)
    simp [hn, this]
  · simp [hn]

section answersOnce

variable {s u : State}

theorem answersOnce_refuse (s : State) : s.AnswersOnce s.refuse :=
  ⟨[], _, answers_refuse s, rfl, fun _ => ⟨rfl, rfl⟩⟩

theorem answersOnce_raiseFault (c : Cause) (s : State) : s.AnswersOnce (raiseFault c s) :=
  ⟨[], _, answers_raiseFault c s, rfl, fun _ => ⟨rfl, rfl⟩⟩

/-- A command that has given no output yet, and responds. -/
theorem answersOnce_respond (h : u.outputs = s.outputs) (v : Word) : s.AnswersOnce (u.respond v) :=
  ⟨[], { data := v, err := false }, by simp [State.Answers, h], rfl, fun hr => by cases hr⟩

/-- A command that has run its passes from index 0, and responds. -/
theorem answersOnce_respond_of_passes {ks : List PassKind} {w : Words16} (hk : ks.length ≤ 32)
    (h : u.outputs = s.outputs ++ (runPasses ks 0 w).2.map Output.event) (v : Word) : s.AnswersOnce (u.respond v) :=
  ⟨_, { data := v, err := false }, by simp [State.Answers, h], runPasses_idx ks w hk, fun hr => by cases hr⟩

theorem answersOnce_respondKey (s : State) (v : Word) : s.AnswersOnce (s.respondKey v) := by
  cases hk : s.KVALID with
  | true => rw [respondKey_of_valid v hk]; exact answersOnce_respond rfl v
  | false => rw [respondKey_of_invalid v hk]; exact answersOnce_raiseFault _ s

/-- Every command on a CORE that is not locked out: it responds, after its passes if it has some, or it takes a fault. -/
theorem exec_answersOnce_of_unlocked (i : Instr) (h : s.ERR = false) : ∃ t, exec i s = .next t ∧ s.AnswersOnce t := by
  cases i with
  | addw pd ps => exact ⟨_, exec_addw h pd ps, answersOnce_respond (by simp) 0⟩
  | xorw pd ps => exact ⟨_, exec_xorw h pd ps, answersOnce_respond (by simp) 0⟩
  | rolw pd n =>
    by_cases hn : n = 0
    · subst hn; exact ⟨_, exec_rolw_zero h pd, answersOnce_raiseFault _ s⟩
    · exact ⟨_, exec_rolw h pd n hn, answersOnce_respond (by simp) 0⟩
  | qr a b c d =>
    by_cases hd : PositionsDistinct a b c d
    · exact ⟨_, exec_qr h a b c d hd, answersOnce_respond (by simp) 0⟩
    · exact ⟨_, exec_qr_repeated h a b c d hd, answersOnce_raiseFault _ s⟩
  | colr => exact ⟨_, exec_colr h, answersOnce_respond_of_passes (by decide) (s.pass_outputs _) 0⟩
  | diagr => exact ⟨_, exec_diagr h, answersOnce_respond_of_passes (by decide) (s.pass_outputs _) 0⟩
  | dblr => exact ⟨_, exec_dblr h, answersOnce_respond_of_passes (by decide) (s.pass_outputs _) 0⟩
  | mix => exact ⟨_, exec_mix h, answersOnce_respond_of_passes (by decide) (s.pass_outputs _) 0⟩
  | init => exact ⟨_, exec_init h, answersOnce_respond (by simp) 0⟩
  | ffwd => exact ⟨_, exec_ffwd h, answersOnce_respond (by simp) 0⟩
  | ser => exact ⟨_, exec_ser h, answersOnce_respond (by simp) 0⟩
  | block =>
    exact ⟨_, exec_block h,
      answersOnce_respond_of_passes (ks := mixPasses) (w := s.copyS.W) (by decide) (by simp) 0⟩
  | lds j v => exact ⟨_, exec_lds h j v, answersOnce_respond (by simp) 0⟩
  | rds j => exact ⟨_, exec_rds h j, answersOnce_respond rfl _⟩
  | rdw j => exact ⟨_, exec_rdw h j, answersOnce_respond rfl _⟩
  | rdkb j => exact ⟨_, exec_rdkb h j, answersOnce_respondKey s _⟩
  | rdkw j => exact ⟨_, exec_rdkw h j, answersOnce_respondKey s _⟩
  | rdst => exact ⟨_, exec_rdst s, answersOnce_respond rfl _⟩

/-- Every command in every state; under lockout all but `RDST` are refused. -/
theorem exec_answersOnce (i : Instr) (s : State) :
    ∃ t, exec i s = .next t ∧ t.inputs = s.inputs ∧ s.AnswersOnce t := by
  cases hs : s.ERR with
  | false =>
    obtain ⟨t, ht, ha⟩ := exec_answersOnce_of_unlocked i hs
    obtain ⟨u, hu, hin, -⟩ := exec_fields i hs
    obtain rfl : t = u := by simpa [ht] using hu
    exact ⟨t, ht, hin, ha⟩
  | true =>
    by_cases hi : i = .rdst
    · subst hi; exact ⟨_, exec_rdst s, rfl, answersOnce_respond rfl _⟩
    · exact ⟨_, exec_of_locked i hs hi, rfl, answersOnce_refuse s⟩

/-- One step on a command, legal or not, answers from the state in which the command was accepted. -/
theorem step_answersOnce {cmd d : Word} {rest : List HostInput} (hin : s.inputs = .command cmd d :: rest) :
    ∃ t, step s = .next t ∧ t.inputs = rest ∧ State.AnswersOnce { s with inputs := rest } t := by
  obtain ⟨-, -, ha⟩ | ⟨-, ⟨e, -, ha⟩ | ⟨i, -, ha⟩⟩ := accept_cases cmd d { s with inputs := rest }
  · exact ⟨_, step_of_lockedOut hin ha, rfl, answersOnce_refuse _⟩
  · exact ⟨_, step_of_illegal hin ha, raiseFault_inputs _ _, answersOnce_raiseFault _ _⟩
  · rw [step_of_run hin ha]
    exact exec_answersOnce i _

end answersOnce

/-- Settles O41: taking the command off the inputs leaves the outputs as they were. -/
theorem everyCommandGetsOneResponse : Obligations.EveryCommandGetsOneResponse := by
  intro s cmd d rest hin
  obtain ⟨t, ht, hrest, es, r, ha⟩ := step_answersOnce hin
  exact ⟨t, es, r, ht, hrest, ha⟩

end Sys2Proof.Machine
end

section
/-! PROOFS. The statements about the command encoding (30_encoding.md): the round trip of the encoder and the decoder,
`match` and `mask`, illegal command words, what a step does with a word, and `LDSTATE`. -/

namespace Sys2Proof

/-! ### Fields of a word (R8, R61) -/

/-- Three fields make a command word: `OPC`, `RSV`, `ARG` (R61). -/
theorem toNat_eq_of_fields (w : Word) :
    w.toNat = 2 ^ 24 * bits w 31 24 + 2 ^ 16 * bits w 23 16 + bits w 15 0 := by
  simp only [bits]
  omega

theorem word_eq_iff_fields {v w : Word} :
    v = w ↔ bits v 31 24 = bits w 31 24 ∧ bits v 23 16 = bits w 23 16 ∧ bits v 15 0 = bits w 15 0 := by
  refine ⟨fun h => h ▸ ⟨rfl, rfl, rfl⟩, fun ⟨h₁, h₂, h₃⟩ => BitVec.eq_of_toNat_eq ?_⟩
  rw [toNat_eq_of_fields v, toNat_eq_of_fields w, h₁, h₂, h₃]

/-- A field inside `ARG` is a field of the number `ARG`. -/
theorem bits_of_arg (w : Word) {hi lo : Nat} (h : hi < 16) :
    bits w hi lo = bits w 15 0 / 2 ^ lo % 2 ^ (hi + 1 - lo) := by
  simp only [bits, pow_zero, Nat.div_one]
  refine Nat.eq_of_testBit_eq fun k => ?_
  simp only [Nat.testBit_mod_two_pow, Nat.testBit_div_two_pow]
  by_cases hk : k < hi + 1 - lo
  · simp [show k + lo < 15 + 1 - 0 by omega]
  · simp [hk]

theorem posField_val (w : Word) (lo : Nat) : (posField w lo).val = bits w (lo + 3) lo := by
  rw [posField, Fin.ofNat, bits, show lo + 3 + 1 - lo = 4 by omega]
  exact Nat.mod_mod _ _

theorem bits_and (v w : Word) (hi lo : Nat) : bits (v &&& w) hi lo = bits v hi lo &&& bits w hi lo := by
  simp only [bits, BitVec.toNat_and, Nat.and_div_two_pow, Nat.and_mod_two_pow]

/-- Ones in bits hi down to lo and 0 elsewhere. -/
def fieldMask (hi lo : Nat) : Nat := (2 ^ (hi + 1 - lo) - 1) * 2 ^ lo

theorem and_fieldMask (n hi lo : Nat) : n &&& fieldMask hi lo = n / 2 ^ lo % 2 ^ (hi + 1 - lo) * 2 ^ lo := by
  have hdiv : (n &&& fieldMask hi lo) / 2 ^ lo = n / 2 ^ lo % 2 ^ (hi + 1 - lo) := by
    rw [Nat.and_div_two_pow, fieldMask, Nat.mul_div_cancel _ (Nat.two_pow_pos lo), Nat.and_two_pow_sub_one_eq_mod]
  have hmod : (n &&& fieldMask hi lo) % 2 ^ lo = 0 := by
    rw [Nat.and_mod_two_pow, fieldMask, Nat.mul_mod_left, Nat.and_zero]
  rw [← hdiv, Nat.div_mul_cancel (Nat.dvd_of_mod_eq_zero hmod)]

/-- A field inside `ARG` is 0 exactly when its mask leaves nothing of `ARG`. -/
theorem arg_and_fieldMask_eq_zero (w : Word) {hi lo : Nat} (h : hi < 16) :
    bits w 15 0 &&& fieldMask hi lo = 0 ↔ bits w hi lo = 0 := by
  rw [and_fieldMask, ← bits_of_arg w h, Nat.mul_eq_zero, or_iff_left (Nat.two_pow_pos lo).ne']

/-! ### Encoding, then decoding (R60 to R62, R64) -/

/-- The fields of the encoder's word, for every command. -/
theorem encodedFields (i : Instr) : Laws.EncodedFields.Statement i := by
  cases i with
  | addw pd ps => exact Laws.EncodedFields.addw pd ps
  | xorw pd ps => exact Laws.EncodedFields.xorw pd ps
  | rolw pd n => exact Laws.EncodedFields.rolw pd n
  | qr a b c d => exact Laws.EncodedFields.qr a b c d
  | colr => exact Laws.EncodedFields.colr
  | diagr => exact Laws.EncodedFields.diagr
  | dblr => exact Laws.EncodedFields.dblr
  | mix => exact Laws.EncodedFields.mix
  | init => exact Laws.EncodedFields.init
  | ffwd => exact Laws.EncodedFields.ffwd
  | ser => exact Laws.EncodedFields.ser
  | block => exact Laws.EncodedFields.block
  | lds j v => exact Laws.EncodedFields.lds j v
  | rds j => exact Laws.EncodedFields.rds j
  | rdw j => exact Laws.EncodedFields.rdw j
  | rdkb j => exact Laws.EncodedFields.rdkb j
  | rdkw j => exact Laws.EncodedFields.rdkw j
  | rdst => exact Laws.EncodedFields.rdst

theorem reservedClear_encode (i : Instr) : i.opcode.reservedClear (encode i).cmd = true := by
  obtain ⟨-, hrsv, harg, -⟩ := encodedFields i
  simp [Opcode.reservedClear, hrsv, harg]

/-- A field inside the operand field of an encoded command. -/
theorem bits_encode (i : Instr) {hi lo : Nat} (h : hi < 16) :
    bits (encode i).cmd hi lo = i.arg / 2 ^ lo % 2 ^ (hi + 1 - lo) := by
  obtain ⟨-, -, -, harg⟩ := encodedFields i
  rw [bits_of_arg _ h, harg]

/-- A position field whose four bits of `ARG` hold the position p. -/
theorem posField_encode {i : Instr} {p : Pos} {lo : Nat} (h : lo + 3 < 16) (hp : i.arg / 2 ^ lo % 2 ^ 4 = p.val) :
    posField (encode i).cmd lo = p := by
  apply Fin.ext
  rw [posField_val, bits_encode i h, show lo + 3 + 1 - lo = 4 by omega, hp]

theorem encode_cmdData (i : Instr) : (encode i).cmdData = i.data := rfl

/-- The operands the decoder lays out of an encoded command are the command's. -/
theorem assemble_encode (i : Instr) : i.opcode.assemble (encode i).cmd (encode i).cmdData = i := by
  cases i with
  | colr | diagr | dblr | mix | init | ffwd | ser | block | rdst => rfl
  | addw pd ps | xorw pd ps =>
    simp only [Instr.opcode, Opcode.assemble]
    congr 1 <;> exact posField_encode (by decide) (by simp only [Instr.arg]; omega)
  | qr a b c d =>
    simp only [Instr.opcode, Opcode.assemble]
    congr 1 <;> exact posField_encode (by decide) (by simp only [Instr.arg]; omega)
  | lds j v | rds j | rdw j | rdkw j =>
    simp only [Instr.opcode, Opcode.assemble, encode_cmdData, Instr.data]
    congr 1
    exact posField_encode (by decide) (by simp only [Instr.arg]; omega)
  | rolw pd n =>
    simp only [Instr.opcode, Opcode.assemble]
    congr 1
    · exact posField_encode (by decide) (by simp only [Instr.arg]; omega)
    · apply Fin.ext
      simp only [Fin.ofNat, bits_encode (.rolw pd n) (by decide : 12 < 16), Instr.arg]
      omega
  | rdkb j =>
    simp only [Instr.opcode, Opcode.assemble]
    congr 1
    apply Fin.ext
    simp only [Fin.ofNat, bits_encode (.rdkb j) (by decide : 5 < 16), Instr.arg]
    omega

/-- Settles O45: the encoder's word has the command's opcode, no reserved bit set, and the command's operands. -/
theorem decodeEncodeRoundTrip : Obligations.DecodeEncodeRoundTrip := fun i => by
  obtain ⟨hopc, -, -, -⟩ := encodedFields i
  exact decode_eq_ok.2 ⟨i.opcode, hopc.symm, reservedClear_encode i, assemble_encode i⟩

/-- Settles O48: each word is the encoder's word for the command it spells. -/
theorem specWordsDecodeToTheirCommands : Obligations.SpecWordsDecodeToTheirCommands :=
  ⟨decodeEncodeRoundTrip (.addw 3 1), decodeEncodeRoundTrip (.rolw 1 31), decodeEncodeRoundTrip (.qr 2 7 8 13),
    decodeEncodeRoundTrip .dblr, decodeEncodeRoundTrip .block, decodeEncodeRoundTrip (.lds 12 1),
    decodeEncodeRoundTrip (.rdkb 63)⟩

/-! ### Decoding, then encoding -/

/-- The operand field of what the decoder lays out is the word's: a format has no bits besides its operands and its
reserved bits (R62). -/
theorem arg_assemble {o : Opcode} {cmd : Word} (d : Word) (h : o.format.argReservedClear cmd = true) :
    (o.assemble cmd d).arg = bits cmd 15 0 := by
  cases o with
  | colr | diagr | dblr | mix | init | ffwd | ser | block | rdst => exact (eq_of_beq h).symm
  | qr | addw | xorw | lds | rds | rdw | rdkw =>
    simp only [Opcode.format, Format.argReservedClear, beq_iff_eq, bits] at h
    simp only [Opcode.assemble, Instr.arg, posField_val, bits]
    omega
  | rolw =>
    simp only [Opcode.format, Format.argReservedClear, Bool.and_eq_true, beq_iff_eq, bits] at h
    simp only [Opcode.assemble, Instr.arg, posField_val, Fin.ofNat, bits]
    omega
  | rdkb =>
    simp only [Opcode.format, Format.argReservedClear, beq_iff_eq, bits] at h
    simp only [Opcode.assemble, Instr.arg, Fin.ofNat, bits]
    omega

theorem data_assemble (o : Opcode) (cmd d : Word) : (o.assemble cmd d).data = if o = .lds then d else 0 := by
  cases o <;> rfl

theorem assemble_of_ne_lds {o : Opcode} (h : o ≠ .lds) (cmd d d' : Word) : o.assemble cmd d = o.assemble cmd d' := by
  cases o with
  | lds => exact absurd rfl h
  | _ => rfl

/-- What a word decodes to has the word's opcode. -/
theorem opcode_code_of_decode {cmd d : Word} {i : Instr} (h : decode cmd d = .ok i) :
    i.opcode.code = bits cmd 31 24 := by
  obtain ⟨o, ho, -, rfl⟩ := decode_eq_ok.1 h
  rw [o.opcode_assemble, ho]

theorem encode_assemble_cmd {o : Opcode} {cmd : Word} (d : Word) (ho : o.code = bits cmd 31 24)
    (hr : o.reservedClear cmd = true) : (encode (o.assemble cmd d)).cmd = cmd := by
  simp only [Opcode.reservedClear, Bool.and_eq_true, beq_iff_eq] at hr
  obtain ⟨hrsv, harg⟩ := hr
  apply BitVec.eq_of_toNat_eq
  rw [encode_cmd_toNat, o.opcode_assemble, arg_assemble d harg, toNat_eq_of_fields cmd, hrsv, ho, Nat.mul_zero,
    Nat.add_zero]

/-- Settles O46: `OPC`, `RSV` and `ARG` are all accounted for, and only the layout of `LDS` names the data operand. -/
theorem decodedWordsAreTheEncodersWords : Obligations.DecodedWordsAreTheEncodersWords := by
  intro cmd d i h
  obtain ⟨o, ho, hr, rfl⟩ := decode_eq_ok.1 h
  rw [o.opcode_assemble]
  exact ⟨encode_assemble_cmd d ho hr, data_assemble o cmd d,
    fun d' hlds => decode_eq_ok.2 ⟨o, ho, hr, assemble_of_ne_lds hlds cmd d' d⟩⟩

/-! ### `match` and `mask` (R63) -/

/-- The reserved bits of `ARG` under a format, as ones (R62). -/
def Format.reservedMask : Format → Nat
  | .N => fieldMask 15 0
  | .Q => 0
  | .P2 => fieldMask 15 8
  | .PN => fieldMask 15 13 ||| fieldMask 3 0
  | .I => fieldMask 15 4
  | .J => fieldMask 15 6

theorem Format.argReservedClear_iff (f : Format) (w : Word) :
    f.argReservedClear w = true ↔ bits w 15 0 &&& f.reservedMask = 0 := by
  cases f <;>
    simp [Format.argReservedClear, Format.reservedMask, Nat.and_or_distrib_left, Nat.or_eq_zero_iff,
      arg_and_fieldMask_eq_zero]

/-- The mask of a row keeps `OPC` and `RSV` and the reserved bits of `ARG`. -/
theorem Opcode.bits_maskWord (o : Opcode) :
    bits o.maskWord 31 24 = 2 ^ 8 - 1 ∧ bits o.maskWord 23 16 = 2 ^ 8 - 1 ∧
      bits o.maskWord 15 0 = o.format.reservedMask := by
  cases o <;> decide

/-- The match of a row is its opcode and 0 elsewhere. -/
theorem Opcode.bits_matchWord (o : Opcode) :
    bits o.matchWord 31 24 = o.code ∧ bits o.matchWord 23 16 = 0 ∧ bits o.matchWord 15 0 = 0 := by
  cases o <;> decide

/-- A word is `match` under `mask` exactly when it passes steps 2 and 3 of the decode order (R70) for that row. -/
theorem Opcode.and_maskWord_eq_iff (o : Opcode) (w : Word) :
    w &&& o.maskWord = o.matchWord ↔ o.code = bits w 31 24 ∧ o.reservedClear w = true := by
  obtain ⟨hk₁, hk₂, hk₃⟩ := o.bits_maskWord
  obtain ⟨hm₁, hm₂, hm₃⟩ := o.bits_matchWord
  have byteField : ∀ lo, bits w (lo + 7) lo &&& (2 ^ 8 - 1) = bits w (lo + 7) lo := fun lo => by
    rw [Nat.and_two_pow_sub_one_eq_mod, bits, show lo + 7 + 1 - lo = 8 by omega, Nat.mod_mod]
  rw [word_eq_iff_fields, bits_and, bits_and, bits_and, hk₁, hk₂, hk₃, hm₁, hm₂, hm₃, byteField 24, byteField 16,
    Opcode.reservedClear, Bool.and_eq_true, beq_iff_eq, Format.argReservedClear_iff, eq_comm (a := o.code)]

/-- The words that decode to a command of a given row. -/
theorem exists_decode_iff {o : Opcode} {w d : Word} :
    (∃ i : Instr, i.opcode = o ∧ decode w d = .ok i) ↔ o.code = bits w 31 24 ∧ o.reservedClear w = true := by
  constructor
  · rintro ⟨i, rfl, h⟩
    obtain ⟨o, ho, hr, rfl⟩ := decode_eq_ok.1 h
    rw [o.opcode_assemble]
    exact ⟨ho, hr⟩
  · rintro ⟨ho, hr⟩
    exact ⟨o.assemble w d, o.opcode_assemble w d, decode_eq_ok.2 ⟨o, ho, hr, rfl⟩⟩

/-- Settles O47: both sides say that `OPC` is the row's and that no reserved bit is set, and a code names one row. -/
theorem matchAndMaskSpellTheCommands : Obligations.MatchAndMaskSpellTheCommands :=
  ⟨fun w _ o => (o.and_maskWord_eq_iff w).trans exists_decode_iff.symm, fun w o₁ o₂ h₁ h₂ =>
    Opcode.code_injective (((o₁.and_maskWord_eq_iff w).1 h₁).1.trans ((o₂.and_maskWord_eq_iff w).1 h₂).1.symm)⟩

end Sys2Proof

namespace Sys2Proof.Machine

variable {s : State} {cmd d : Word} {rest : List HostInput}

/-! ### What a step does with a command word (R65, R70) -/

/-- A command word that does not decode, on a CORE that is not locked out. -/
theorem step_of_decode_error {e : DecodeError} (hin : s.inputs = .command cmd d :: rest) (hs : s.Unlocked)
    (h : decode cmd d = .error e) : step s = .next (raiseFault (causeOf e) { s with inputs := rest }) :=
  step_of_illegal hin (by simp only [accept, hs, h, Bool.false_and, Bool.false_eq_true, if_false])

/-- A command word that decodes: under lockout the step's refusal is that of the command's own meaning. -/
theorem step_of_decode_ok {i : Instr} (hin : s.inputs = .command cmd d :: rest) (h : decode cmd d = .ok i) :
    step s = exec i { s with inputs := rest } := by
  obtain ⟨hE, hopc, ha⟩ | ⟨-, ⟨e, he, -⟩ | ⟨j, hj, ha⟩⟩ := accept_cases cmd d { s with inputs := rest }
  · have hi : i ≠ .rdst := by rintro rfl; exact hopc (opcode_code_of_decode h).symm
    rw [step_of_lockedOut hin ha, exec_of_locked i hE hi]
  · cases he.symm.trans h
  · cases hj.symm.trans h
    exact step_of_run hin ha

theorem takesFault_raiseFault (c : Cause) (h : s.Unlocked) : s.TakesFault c (raiseFault c s) := by
  refine ⟨raiseFault_ERR c s, ?_, raiseFault_S c s, raiseFault_W c s, raiseFault_KB c s, raiseFault_KVALID c s,
    raiseFault_inputs c s, answers_raiseFault c s⟩
  simp [h]

/-- Settles O44: a decoded word is run, and the model's own lists are as `step_idle` and `step_reset` say. -/
theorem stepRunsTheDecodedCommand : Obligations.StepRunsTheDecodedCommand :=
  ⟨fun _ _ _ _ _ hin h => step_of_decode_ok hin h, fun _ hin => step_idle hin,
    fun _ _ hin => ⟨_, step_reset hin, rfl, rfl⟩⟩

/-- Settles O34: the two kinds of illegal word are the two errors of the decoder, and `match` under `mask` is what
passes it. -/
theorem illegalCommandWordsFault : Obligations.IllegalCommandWordsFault := by
  intro s cmd d rest hin hs
  refine ⟨fun hopc => ?_, fun o ho hmask => ?_, fun o hmask => ?_⟩
  · exact ⟨_, step_of_decode_error hin hs (decode_eq_illegalOpcode.2 hopc), takesFault_raiseFault _ hs⟩
  · have hr : o.reservedClear cmd = false :=
      Bool.eq_false_iff.2 fun hr => hmask ((o.and_maskWord_eq_iff cmd).2 ⟨ho, hr⟩)
    exact ⟨_, step_of_decode_error hin hs (decode_eq_reservedNonzero.2 ⟨o, ho, hr⟩), takesFault_raiseFault _ hs⟩
  · obtain ⟨i, hio, hi⟩ := exists_decode_iff.2 ((o.and_maskWord_eq_iff cmd).1 hmask)
    exact ⟨i, hio, hi, step_of_decode_ok hin hi⟩

/-! ### `LDSTATE` (R69) -/

/-- The words of st loaded at a list of positions, in any order and with repeats: those positions of `S` are st's, the
others and all else are as before, and each `LDS` responds with 0. -/
theorem execList_lds (st : Words16) (ps : List Pos) (hs : s.Unlocked) :
    ∃ t, execList (ps.map fun i => .lds i st[i]) s = .next t ∧
      (∀ k : Pos, t.S[k] = if k ∈ ps then st[k] else s.S[k]) ∧ s.KeepsAllButS t ∧
      t.outputs = s.outputs ++ List.replicate ps.length (.response { data := 0, err := false }) := by
  induction ps generalizing s with
  | nil => exact ⟨s, rfl, by simp, ⟨rfl, rfl, rfl, rfl, rfl, rfl⟩, by simp⟩
  | cons p ps ih =>
    obtain ⟨t, ht, hS, hkeep, hout⟩ := ih (s := (s.writeS p st[p]).respond 0) hs
    refine ⟨t, (execList_cons_of_next (exec_lds hs p st[p])).trans ht, fun k => ?_, hkeep, by simp [hout, List.replicate_succ]⟩
    rw [hS, State.respond_S, State.writeS_S, vector_set_getElem]
    by_cases hk : k ∈ ps
    · simp [hk]
    · by_cases hp : p = k
      · subst hp; simp
      · simp [hk, hp, Ne.symm hp]

/-- Settles O57: the sixteen positions are all of `S`. -/
theorem ldstateLoadsAllSixteenWords : Obligations.LdstateLoadsAllSixteenWords := by
  refine fun st => ⟨fun i => by simp [ldstate], by simp [ldstate], fun s hs => ?_⟩
  obtain ⟨t, ht, hS, hkeep, hout⟩ := execList_lds st (List.finRange 16) hs
  refine ⟨t, ht, vector_ext fun k => ?_, hkeep, by simpa using hout⟩
  rw [hS, if_pos (List.mem_finRange k)]

end Sys2Proof.Machine
end

section
/-! PROOFS. The statements about word arithmetic (40_word_arithmetic.md): the word functions `ADD32`, `XOR32` and
`ROTL32`, and the commands `ADDW`, `XORW` and `ROLW`. -/

namespace Sys2Proof

theorem encode_cmd_of_eq {i : Instr} {n : Nat} (h : 2 ^ 24 * i.opcode.code + i.arg = n) :
    (encode i).cmd = BitVec.ofNat 32 n := by
  rw [encode, h]

end Sys2Proof

namespace Sys2Proof.Machine

/-! ### `ADD32` and `XOR32` (R80, R81) -/

/-- The model's addition is the addition of `BitVec 32`. -/
theorem add32_eq (a b : Word) : add32 a b = a + b := by
  rw [add32, BitVec.ofNat_add, BitVec.ofNat_toNat, BitVec.ofNat_toNat, BitVec.setWidth_eq, BitVec.setWidth_eq]

theorem add32_toNat (a b : Word) : (add32 a b).toNat = (a.toNat + b.toNat) % 2 ^ 32 := by
  rw [add32_eq, BitVec.toNat_add]

theorem add32_bijective (b : Word) : Function.Bijective fun a => add32 a b := by
  have h : (fun a => add32 a b) = Equiv.addRight b := funext fun a => add32_eq a b
  exact h ▸ (Equiv.addRight b).bijective

/-- Settles O3: `ADD32` is the addition of the group of 32-bit words. -/
theorem add32IsAdditionModuloTwoPow32 : Obligations.Add32IsAdditionModuloTwoPow32 := by
  refine ⟨add32_toNat, fun a b => ?_, fun a b c => ?_, fun a => ⟨?_, ?_⟩, add32_bijective, fun a b => ?_⟩
  · rw [add32_eq, add32_eq, BitVec.add_comm]
  · simp only [add32_eq, BitVec.add_assoc]
  · rw [add32_eq]; exact BitVec.add_zero a
  · rw [add32_eq]; exact BitVec.zero_add a
  · rw [add32_toNat]
    have := a.isLt
    have := b.isLt
    omega

theorem xor32_getLsbD (a b : Word) (i : Nat) : (xor32 a b).getLsbD i = (a.getLsbD i ^^ b.getLsbD i) := by
  rw [xor32, BitVec.getLsbD_xor]

theorem xor32_self (a : Word) : xor32 a a = 0 := BitVec.xor_self

/-- Settles O4: `XOR32` is the bitwise operation of 32-bit words. -/
theorem xor32IsBitwise : Obligations.Xor32IsBitwise := by
  refine ⟨fun a b i _ => ?_, fun a b => BitVec.xor_comm a b, fun a b c => BitVec.xor_assoc a b c,
    fun a => ⟨BitVec.xor_zero, BitVec.zero_xor, xor32_self a⟩⟩
  rw [xor32_getLsbD]
  exact bne_iff_ne

/-! ### `ROTL32` (R82) -/

section disjointTerms

variable {a b k : Nat}

/-- A number shifted left by k and a number below `2^k` have no 1 bit in common. -/
theorem shiftLeft_and_of_lt (h : b < 2 ^ k) : a <<< k &&& b = 0 := by
  refine Nat.eq_of_testBit_eq fun i => ?_
  rw [Nat.testBit_and, Nat.testBit_shiftLeft, Nat.zero_testBit]
  by_cases hi : k ≤ i
  · rw [Nat.testBit_lt_two_pow (h.trans_le (Nat.pow_le_pow_right (by decide) hi)), Bool.and_false]
  · simp [hi]

theorem or_eq_xor_of_and_eq_zero (h : a &&& b = 0) : a ||| b = a ^^^ b := by
  refine Nat.eq_of_testBit_eq fun i => ?_
  have hi : (a.testBit i && b.testBit i) = false := by rw [← Nat.testBit_and, h, Nat.zero_testBit]
  rw [Nat.testBit_or, Nat.testBit_xor]
  obtain ha | hb := Bool.and_eq_false_iff.1 hi
  · simp [ha]
  · simp [hb]

end disjointTerms

theorem rotAmount_pos (n : RotAmount) : 0 < n.val.val := Nat.pos_of_ne_zero (Fin.val_ne_zero_iff.2 n.property)

/-- The opposite rotation amount, 32 - n (R82). -/
def oppositeAmount (n : RotAmount) : RotAmount :=
  ⟨⟨32 - n.val.val, Nat.sub_lt (by decide) (rotAmount_pos n)⟩, fun h =>
    Nat.sub_ne_zero_of_lt n.val.isLt (Fin.ext_iff.1 h)⟩

section rotl32

variable (x : Word) (n : RotAmount)

/-- The bits that the rotation brings round to the low end. -/
theorem rotl32_wrapped_lt : x.toNat >>> (32 - n.val.val) < 2 ^ n.val.val := by
  rw [Nat.shiftRight_eq_div_pow, Nat.div_lt_iff_lt_mul (Nat.two_pow_pos _), ← pow_add,
    Nat.add_sub_cancel' n.val.isLt.le]
  exact x.isLt

theorem rotl32_toNat_eq_or :
    (rotl32 x n).toNat = ((x.toNat <<< n.val.val) ||| (x.toNat >>> (32 - n.val.val))) % 2 ^ 32 := by
  rw [rotl32, BitVec.toNat_ofNat]

/-- The model's rotation is the rotation of `BitVec 32`. -/
theorem rotl32_eq_rotateLeft : rotl32 x n = x.rotateLeft n.val.val := by
  apply BitVec.eq_of_toNat_eq
  have hlow : x.toNat >>> (32 - n.val.val) < 2 ^ 32 := (Nat.shiftRight_le _ _).trans_lt x.isLt
  rw [rotl32_toNat_eq_or, BitVec.toNat_rotateLeft, Nat.or_mod_two_pow, Nat.mod_eq_of_lt n.val.isLt,
    Nat.mod_eq_of_lt hlow]

theorem rotl32_getLsbD {i : Nat} (hi : i < 32) : (rotl32 x n).getLsbD ((i + n.val.val) % 32) = x.getLsbD i := by
  have hn := n.val.isLt
  rw [rotl32_eq_rotateLeft, BitVec.getLsbD_rotateLeft_of_le hn]
  by_cases hwrap : i + n.val.val < 32
  · simp [Nat.mod_eq_of_lt hwrap, hwrap]
  · have hmod : (i + n.val.val) % 32 = i + n.val.val - 32 := by omega
    have hback : 32 - n.val.val + (i + n.val.val - 32) = i := by omega
    have hlt : i + n.val.val - 32 < n.val.val := by omega
    simp [hmod, hback, hlt]

/-- The rotated word as a number: its low `32 - n` bits moved up, and below them its high n bits. -/
theorem rotl32_toNat :
    (rotl32 x n).toNat = x.toNat % 2 ^ (32 - n.val.val) * 2 ^ n.val.val + x.toNat / 2 ^ (32 - n.val.val) := by
  have hhigh : x.toNat <<< n.val.val % 2 ^ 32 = (x.toNat % 2 ^ (32 - n.val.val)) <<< n.val.val := by
    rw [Nat.shiftLeft_eq, Nat.shiftLeft_eq, ← Nat.mul_mod_mul_right, ← pow_add, Nat.sub_add_cancel n.val.isLt.le]
  rw [rotl32_eq_rotateLeft, BitVec.toNat_rotateLeft, Nat.mod_eq_of_lt n.val.isLt, hhigh,
    ← Nat.shiftLeft_add_eq_or_of_lt (rotl32_wrapped_lt x n), Nat.shiftLeft_eq, Nat.shiftRight_eq_div_pow]

/-- The same as the concatenation `{x[31-n:0], x[31:32-n]}`. -/
theorem rotl32_toNat_eq_bits :
    (rotl32 x n).toNat = bits x (31 - n.val.val) 0 * 2 ^ n.val.val + bits x 31 (32 - n.val.val) := by
  have hn := n.val.isLt
  have hlow : bits x (31 - n.val.val) 0 = x.toNat % 2 ^ (32 - n.val.val) := by
    rw [bits, pow_zero, Nat.div_one, show 31 - n.val.val + 1 - 0 = 32 - n.val.val by omega]
  have hhigh : bits x 31 (32 - n.val.val) = x.toNat / 2 ^ (32 - n.val.val) := by
    rw [bits, show 31 + 1 - (32 - n.val.val) = n.val.val by omega, ← Nat.shiftRight_eq_div_pow,
      Nat.mod_eq_of_lt (rotl32_wrapped_lt x n)]
  rw [rotl32_toNat, hlow, hhigh]

/-- The two parts of the rotated word are those of the word, changed round. -/
theorem rotl32_div_mod :
    (rotl32 x n).toNat / 2 ^ n.val.val = x.toNat % 2 ^ (32 - n.val.val) ∧
      (rotl32 x n).toNat % 2 ^ n.val.val = x.toNat / 2 ^ (32 - n.val.val) := by
  have hlt := rotl32_wrapped_lt x n
  rw [Nat.shiftRight_eq_div_pow] at hlt
  refine (Nat.div_mod_unique (Nat.two_pow_pos _)).2 ⟨?_, hlt⟩
  rw [rotl32_toNat, Nat.add_comm, Nat.mul_comm]

/-- Rotating on by `32 - n` puts the two parts back in their places. -/
theorem rotl32_rotl32 {m : RotAmount} (h : m.val.val + n.val.val = 32) : rotl32 (rotl32 x n) m = x := by
  have hm : m.val.val = 32 - n.val.val := by omega
  obtain ⟨hdiv, hmod⟩ := rotl32_div_mod x n
  apply BitVec.eq_of_toNat_eq
  rw [rotl32_toNat, hm, Nat.sub_sub_self n.val.isLt.le, hdiv, hmod, Nat.div_add_mod']

end rotl32

theorem rotl32_bijective (n : RotAmount) : Function.Bijective fun x => rotl32 x n := by
  have hn := n.val.isLt.le
  refine Function.bijective_iff_has_inverse.2 ⟨fun x => rotl32 x (oppositeAmount n), fun x => ?_, fun x => ?_⟩
  · exact rotl32_rotl32 x n (Nat.sub_add_cancel hn)
  · exact rotl32_rotl32 x (oppositeAmount n) (Nat.add_sub_cancel' hn)

/-- Settles O5: the rotation as `BitVec` has it gives the bits, and as a number it is two parts that change places. -/
theorem rotl32MovesEveryBit : Obligations.Rotl32MovesEveryBit := by
  intro x n k
  have hlt := rotl32_wrapped_lt x n
  have hand : x.toNat <<< k &&& x.toNat >>> (32 - k) = 0 := shiftLeft_and_of_lt hlt
  refine ⟨rotl32_toNat_eq_or x n, fun i hi => rotl32_getLsbD x n hi, rotl32_toNat_eq_bits x n, hand, ?_, ?_,
    fun m hm => rotl32_rotl32 x n hm, rotl32_bijective n⟩
  · rw [rotl32_toNat_eq_or, Nat.shiftLeft_add_eq_or_of_lt hlt]
  · rw [rotl32_toNat_eq_or, or_eq_xor_of_and_eq_zero hand]

/-! ### The commands that write one working word (R87 to R89) -/

section oneWord

variable (s : State) (pd : Pos) (v : Word)

theorem writeW_respond_self : ((s.writeW pd v).respond 0).W[pd] = v := by
  rw [State.respond_W, State.writeW_W, vector_set_self]

/-- The frame of a command that writes one working word and responds. -/
theorem writeW_respond_frame :
    (∀ k : Pos, k ≠ pd → ((s.writeW pd v).respond 0).W[k] = s.W[k]) ∧
      s.KeepsAllButW ((s.writeW pd v).respond 0) ∧
      s.Answers ((s.writeW pd v).respond 0) [] { data := 0, err := false } := by
  refine ⟨fun k hk => ?_, ⟨rfl, rfl, rfl, rfl, rfl, rfl⟩, by simp [State.Answers]⟩
  rw [State.respond_W, State.writeW_W, vector_set_ne _ _ hk]

end oneWord

/-- Settles O6: `W[pd]` gets the sum of the two words as they were, and nothing else is written. -/
theorem addwAddsIntoOneWorkingWord : Obligations.AddwAddsIntoOneWorkingWord := by
  refine fun pd ps => ⟨encode_cmd_of_eq (Nat.add_assoc _ _ _).symm, fun s hs => ?_⟩
  refine ⟨_, exec_addw hs pd ps, ?_, writeW_respond_frame s pd _⟩
  rw [writeW_respond_self, add32_toNat, State.readW, State.readW]

/-- Settles O7: `W[pd]` gets the XOR of the two words as they were, and nothing else is written. -/
theorem xorwXorsIntoOneWorkingWord : Obligations.XorwXorsIntoOneWorkingWord := by
  refine fun pd ps => ⟨encode_cmd_of_eq (Nat.add_assoc _ _ _).symm, fun s hs => ?_⟩
  refine ⟨_, exec_xorw hs pd ps, fun i _ => ?_, fun hp => ?_, writeW_respond_frame s pd _⟩
  · rw [writeW_respond_self, xor32_getLsbD, State.readW, State.readW]
  · rw [writeW_respond_self, hp, xor32_self]

/-- Settles O8: `ROLW` has one meaning for n = 0 and one for every other n. -/
theorem rolwRotatesOneWorkingWord : Obligations.RolwRotatesOneWorkingWord := by
  refine fun pd n => ⟨encode_cmd_of_eq (Nat.add_assoc _ _ _).symm, fun s hs => ?_⟩
  by_cases hn : n = 0
  · subst hn
    exact ⟨_, exec_rolw_zero hs pd, fun _ => takesFault_raiseFault _ hs, fun h => absurd rfl h⟩
  · refine ⟨_, exec_rolw hs pd n hn, fun h => absurd h hn, fun h => ⟨writeW_respond_self s pd _, fun i hi => ?_,
      writeW_respond_frame s pd _⟩⟩
    rw [writeW_respond_self]
    exact rotl32_getLsbD _ ⟨n, hn⟩ hi

end Sys2Proof.Machine
end

section
/-! PROOFS. The statements about the quarter round (41_quarter_round.md). The twelve operations of
`QRF` are four rounds of addition, XOR and rotation, the second and the fourth with the roles of a and c, and of b and
d, exchanged. So `QRF` is a bijection because a round is one, and the twelve commands are `QRF` because three commands
are a round. -/

namespace Sys2Proof.Machine

/-! ### `QRF` as four rounds of addition, XOR and rotation (R100, R101) -/

/-- One round on four words: a gets a + b, and then d gets d XOR that, rotated by n. -/
def Lane.roundAD (n : RotAmount) (x : Lane) : Lane :=
  { x with a := add32 x.a x.b, d := rotl32 (xor32 x.d (add32 x.a x.b)) n }

/-- The roles of a and c exchanged, and those of b and d. -/
def Lane.exchange (x : Lane) : Lane := { a := x.c, b := x.d, c := x.a, d := x.b }

/-- The round with the roles exchanged: c gets c + d, and then b gets b XOR that, rotated by n. -/
def Lane.roundCB (n : RotAmount) (x : Lane) : Lane := (x.exchange.roundAD n).exchange

theorem qrf_eq_rounds :
    qrf = Lane.roundCB rot7 ∘ Lane.roundAD rot8 ∘ Lane.roundCB rot12 ∘ Lane.roundAD rot16 := rfl

theorem xor32_bijective (b : Word) : Function.Bijective fun a => xor32 a b :=
  Function.Involutive.bijective fun a => by simp only [xor32, BitVec.xor_assoc, BitVec.xor_self, BitVec.xor_zero]

/-- From the round's output, b and c are read off, then a from the sum, then d. -/
theorem roundAD_bijective (n : RotAmount) : Function.Bijective (Lane.roundAD n) := by
  have hd (s : Word) : Function.Bijective fun d => rotl32 (xor32 d s) n :=
    (rotl32_bijective n).comp (xor32_bijective s)
  constructor
  · rintro ⟨a, b, c, d⟩ ⟨a', b', c', d'⟩ h
    obtain ⟨hsum, rfl, rfl, hrot⟩ := Lane.mk.inj h
    obtain rfl : a = a' := (add32_bijective b).injective hsum
    obtain rfl : d = d' := (hd (add32 a b)).injective hrot
    rfl
  · rintro ⟨a', b, c, d'⟩
    obtain ⟨a, rfl⟩ := (add32_bijective b).surjective a'
    obtain ⟨d, rfl⟩ := (hd (add32 a b)).surjective d'
    exact ⟨⟨a, b, c, d⟩, rfl⟩

theorem roundCB_bijective (n : RotAmount) : Function.Bijective (Lane.roundCB n) := by
  have hex : Function.Bijective Lane.exchange := Function.Involutive.bijective fun _ => rfl
  exact hex.comp ((roundAD_bijective n).comp hex)

/-- Settles O9: each of the four rounds is a bijection. -/
theorem quarterRoundIsBijective : Obligations.QuarterRoundIsBijective := by
  refine ⟨by decide, ?_⟩
  rw [qrf_eq_rounds]
  exact (roundCB_bijective rot7).comp ((roundAD_bijective rot8).comp
    ((roundCB_bijective rot12).comp (roundAD_bijective rot16)))

/-! ### `QRS` and the command `QR` (R102, R105) -/

theorem readLane_qrs (st : Words16) (q : Quad) : readLane (qrs st q) q = qrf (readLane st q) :=
  readLane_writeLane st q _

theorem qrs_of_ne (st : Words16) (q : Quad) (k : Pos) (ha : k ≠ q.a) (hb : k ≠ q.b) (hc : k ≠ q.c) (hd : k ≠ q.d) :
    (qrs st q)[k] = st[k] :=
  writeLane_of_ne st q _ k ha hb hc hd

/-- Settles O10: one word that is not 0, in the role of d, already makes the results in the roles of a and b differ. -/
theorem quarterRoundChangesOnlyItsFourPositions : Obligations.QuarterRoundChangesOnlyItsFourPositions := by
  refine ⟨fun st q => ⟨readLane_qrs st q, qrs_of_ne st q⟩, (Vector.replicate 16 0).set 12 1, fun h => ?_⟩
  exact absurd (congrArg (fun st : Words16 => st[0]) h) (by decide)

/-- The frame of a command that writes the working words and responds. -/
theorem setW_respond_frame (s : State) (w : Words16) :
    s.KeepsAllButW ((s.setW w).respond 0) ∧ s.Answers ((s.setW w).respond 0) [] { data := 0, err := false } := by
  refine ⟨⟨rfl, rfl, rfl, rfl, rfl, rfl⟩, ?_⟩
  exact answers_respond (s.setW w) 0

/-- Settles O11: `QR` has one meaning for distinct positions and one for all others. -/
theorem qrRunsOnDistinctPositionsOnly : Obligations.QrRunsOnDistinctPositionsOnly := by
  refine fun a b c d => ⟨encode_cmd_of_eq (by simp only [Instr.opcode, Opcode.code, Instr.arg]; omega), fun s hs => ?_⟩
  by_cases hd : PositionsDistinct a b c d
  · exact ⟨_, exec_qr hs a b c d hd, fun h => absurd hd h,
      fun _ => ⟨readLane_qrs s.W ⟨a, b, c, d, hd⟩, qrs_of_ne s.W ⟨a, b, c, d, hd⟩, setW_respond_frame s _⟩⟩
  · exact ⟨_, exec_qr_repeated hs a b c d hd, fun _ => takesFault_raiseFault _ hs, fun h => absurd h hd⟩

/-! ### `QR` as twelve arithmetic commands (R106) -/

/-- A function of four words at work on four positions of a state. -/
def onLane (f : Lane → Lane) (q : Quad) (st : Words16) : Words16 := writeLane st q (f (readLane st q))

theorem onLane_onLane (f g : Lane → Lane) (q : Quad) (st : Words16) :
    onLane g q (onLane f q st) = onLane (g ∘ f) q st := by
  simp only [onLane, readLane_writeLane, writeLane_writeLane, Function.comp]

/-- A state is known by its four words at q and by agreeing with another one everywhere else. -/
theorem eq_onLane {f : Lane → Lane} {q : Quad} {st w : Words16} (hlane : readLane w q = f (readLane st q))
    (hoff : ∀ k : Pos, k ≠ q.a → k ≠ q.b → k ≠ q.c → k ≠ q.d → w[k] = st[k]) : w = onLane f q st := by
  refine vector_ext fun k => ?_
  rw [onLane, ← hlane, writeLane_getElem]
  split_ifs with hd hc hb ha
  · rw [← hd]; rfl
  · rw [← hc]; rfl
  · rw [← hb]; rfl
  · rw [← ha]; rfl
  · exact hoff k (Ne.symm ha) (Ne.symm hb) (Ne.symm hc) (Ne.symm hd)

/-- The same four positions with the roles of a and c exchanged, and those of b and d. -/
def Quad.exchange (q : Quad) : Quad where
  a := q.c
  b := q.d
  c := q.a
  d := q.b
  distinct := by
    obtain ⟨hab, hac, had, hbc, hbd, hcd⟩ := q.distinct
    exact ⟨hcd, hac.symm, hbc.symm, had.symm, hbd.symm, hab⟩

theorem onLane_exchange (f : Lane → Lane) (q : Quad) (st : Words16) :
    onLane f q.exchange st = onLane (fun x => (f x.exchange).exchange) q st := by
  refine eq_onLane ?_ fun k ha hb hc hd => writeLane_of_ne st q.exchange _ k hc hd ha hb
  exact congrArg Lane.exchange (readLane_writeLane st q.exchange _)

/-- A round writes the words in the roles of a and d only. -/
theorem set_set_eq_onLane_roundAD (n : RotAmount) (q : Quad) (st : Words16) :
    (st.set q.a (add32 st[q.a] st[q.b])).set q.d (rotl32 (xor32 st[q.d] (add32 st[q.a] st[q.b])) n) =
      onLane (Lane.roundAD n) q st := by
  obtain ⟨hab, hac, had, hbc, hbd, hcd⟩ := q.distinct
  refine eq_onLane ?_ fun k ha hb hc hd => ?_
  · simp only [readLane, Lane.roundAD, vector_set_self, vector_set_ne _ _ had, vector_set_ne _ _ hab.symm,
      vector_set_ne _ _ hac.symm, vector_set_ne _ _ hbd, vector_set_ne _ _ hcd]
  · rw [vector_set_ne _ _ hd, vector_set_ne _ _ ha]

/-- The state after m commands that together do f on the four words at q, each with its response. -/
def State.afterLane (s : State) (q : Quad) (f : Lane → Lane) (m : Nat) : State :=
  { s with W := onLane f q s.W, outputs := s.outputs ++ List.replicate m (.response { data := 0, err := false }) }

@[simp] theorem State.afterLane_ERR (s : State) (q : Quad) (f : Lane → Lane) (m : Nat) :
    (s.afterLane q f m).ERR = s.ERR := rfl

theorem State.afterLane_afterLane (s : State) (q : Quad) (f g : Lane → Lane) (m k : Nat) :
    (s.afterLane q f m).afterLane q g k = s.afterLane q (g ∘ f) (m + k) := by
  simp only [State.afterLane, onLane_onLane, List.append_assoc, List.replicate_append_replicate]

theorem State.afterLane_exchange_roundAD (s : State) (n : RotAmount) (q : Quad) (m : Nat) :
    s.afterLane q.exchange (Lane.roundAD n) m = s.afterLane q (Lane.roundCB n) m := by
  rw [State.afterLane, onLane_exchange]; rfl

/-- The three commands of a round. -/
def roundCommands (n : RotAmount) (q : Quad) : List Instr := [.addw q.a q.b, .xorw q.d q.a, .rolw q.d n.val]

theorem twelveCommands_eq_rounds (q : Quad) :
    twelveCommands q.a q.b q.c q.d =
      roundCommands rot16 q ++ (roundCommands rot12 q.exchange ++
        (roundCommands rot8 q ++ (roundCommands rot7 q.exchange ++ []))) := rfl

/-- Each command of a round reads what the one before it has left in `W[a]` and `W[d]`. -/
theorem execList_roundCommands {s : State} (hs : s.ERR = false) (n : RotAmount) (q : Quad) :
    execList (roundCommands n q) s = .next (s.afterLane q (Lane.roundAD n) 3) := by
  obtain ⟨-, -, had, -, -, -⟩ := q.distinct
  simp only [roundCommands, execList, exec_addw, exec_xorw, exec_rolw _ _ _ n.property, hs, State.respond_ERR,
    State.writeW_ERR, State.readW, State.respond_W, State.writeW_W, vector_set_self, vector_set_ne _ _ had.symm]
  rw [State.afterLane, ← set_set_eq_onLane_roundAD]
  simp [State.respond, State.writeW, List.replicate_succ]

theorem execList_roundCommands_append {s : State} (hs : s.ERR = false) (n : RotAmount) (q : Quad) (is : List Instr) :
    execList (roundCommands n q ++ is) s = execList is (s.afterLane q (Lane.roundAD n) 3) :=
  execList_append (execList_roundCommands hs n q)

/-- Three commands do one round, and four rounds are `QRF`. -/
theorem execList_twelveCommands {s : State} (hs : s.ERR = false) (q : Quad) :
    execList (twelveCommands q.a q.b q.c q.d) s = .next (s.afterLane q qrf 12) := by
  simp only [twelveCommands_eq_rounds, execList_roundCommands_append, hs, State.afterLane_ERR, execList,
    State.afterLane_exchange_roundAD, State.afterLane_afterLane, qrf_eq_rounds]

/-- `QR` does the same in one command, for `qrs` is `qrf` at work on the four positions. -/
theorem exec_qr_eq_afterLane {s : State} (hs : s.ERR = false) (q : Quad) :
    exec (.qr q.a q.b q.c q.d) s = .next (s.afterLane q qrf 1) :=
  exec_qr hs q.a q.b q.c q.d q.distinct

/-- Settles O12: both do `QRF` on the four words, with twelve responses and with one. -/
theorem qrEqualsTwelveArithmeticCommands : Obligations.QrEqualsTwelveArithmeticCommands := by
  intro a b c d s hs hd
  exact ⟨_, _, execList_twelveCommands hs ⟨a, b, c, d, hd⟩, exec_qr_eq_afterLane hs ⟨a, b, c, d, hd⟩, rfl, rfl, rfl,
    rfl⟩

end Sys2Proof.Machine
end

section
/-! PROOFS. The statements about the passes of the state mixer (42_state_mixer.md). A pass is four quarter rounds on
groups with no position in common, so they may be done in any order, or all at once. -/

namespace Sys2Proof.Machine

/-! ### Quarter rounds on disjoint groups (R114) -/

/-- k is one of the four positions of q. -/
def Quad.Has (q : Quad) (k : Pos) : Prop := k = q.a ∨ k = q.b ∨ k = q.c ∨ k = q.d

theorem Quad.not_has {q : Quad} {k : Pos} : ¬ q.Has k ↔ k ≠ q.a ∧ k ≠ q.b ∧ k ≠ q.c ∧ k ≠ q.d := by
  simp only [Quad.Has, not_or]

theorem Quad.Disjoint.not_has {p q : Quad} (h : p.Disjoint q) {k : Pos} (hp : p.Has k) : ¬ q.Has k :=
  Quad.not_has.2 (h k hp)

theorem Quad.Disjoint.symm {p q : Quad} (h : p.Disjoint q) : q.Disjoint p :=
  fun _ hq => Quad.not_has.1 fun hp => h.not_has hp hq

theorem writeLane_of_not_has {q : Quad} {k : Pos} (h : ¬ q.Has k) (st : Words16) (x : Lane) :
    (writeLane st q x)[k] = st[k] := by
  obtain ⟨ha, hb, hc, hd⟩ := Quad.not_has.1 h
  exact writeLane_of_ne st q x k ha hb hc hd

/-- The word at a position of the group is the one written back, whatever the state was. -/
theorem writeLane_of_has {q : Quad} {k : Pos} (h : q.Has k) (st w : Words16) (x : Lane) :
    (writeLane st q x)[k] = (writeLane w q x)[k] := by
  simp only [writeLane_getElem]
  split_ifs with hd hc hb ha
  · rfl
  · rfl
  · rfl
  · rfl
  · exact absurd h (Quad.not_has.2 ⟨Ne.symm ha, Ne.symm hb, Ne.symm hc, Ne.symm hd⟩)

/-- What is written back at disjoint groups does not depend on the order. -/
theorem writeLane_comm_of_disjoint {p q : Quad} (h : p.Disjoint q) (st : Words16) (x y : Lane) :
    writeLane (writeLane st p x) q y = writeLane (writeLane st q y) p x := by
  refine vector_ext fun k => ?_
  by_cases hp : p.Has k
  · rw [writeLane_of_not_has (h.not_has hp)]
    exact writeLane_of_has hp _ _ x
  · rw [writeLane_of_not_has hp (writeLane st q y)]
    by_cases hq : q.Has k
    · exact writeLane_of_has hq _ _ y
    · rw [writeLane_of_not_has hq, writeLane_of_not_has hq, writeLane_of_not_has hp]

theorem readLane_qrs_of_disjoint {p q : Quad} (h : p.Disjoint q) (st : Words16) :
    readLane (qrs st q) p = readLane st p :=
  readLane_writeLane_of_disjoint st p q _ h

theorem qrs_comm_of_disjoint {p q : Quad} (h : p.Disjoint q) (st : Words16) :
    qrs (qrs st p) q = qrs (qrs st q) p := by
  calc qrs (qrs st p) q = writeLane (qrs st p) q (qrf (readLane st q)) := by
        rw [qrs, readLane_qrs_of_disjoint h.symm]
    _ = writeLane (qrs st q) p (qrf (readLane st p)) := writeLane_comm_of_disjoint h st _ _
    _ = qrs (qrs st q) p := by rw [qrs.eq_def (qrs st q), readLane_qrs_of_disjoint h]

section disjointGroups

variable {gs : List Quad}

theorem foldl_qrs_of_perm {ps : List Quad} (hgs : gs.Pairwise Quad.Disjoint) (hperm : gs.Perm ps) (st : Words16) :
    gs.foldl qrs st = ps.foldl qrs st := by
  have : Std.Symm Quad.Disjoint := ⟨fun _ _ h => h.symm⟩
  refine hperm.foldl_eq' (fun p hp q hq st => ?_) st
  by_cases hpq : p = q
  · rw [hpq]
  · exact qrs_comm_of_disjoint (hgs.forall hp hq hpq) st

/-- Quarter rounds on other groups leave the words of a group as they are. -/
theorem readLane_foldl_qrs_of_disjoint {q : Quad} (h : ∀ p ∈ gs, q.Disjoint p) (st : Words16) :
    readLane (gs.foldl qrs st) q = readLane st q := by
  induction gs generalizing st with
  | nil => rfl
  | cons p gs ih =>
    obtain ⟨hp, hgs⟩ := List.forall_mem_cons.1 h
    rw [List.foldl_cons, ih hgs, readLane_qrs_of_disjoint hp]

theorem readLane_foldl_qrs {q : Quad} (hgs : gs.Pairwise Quad.Disjoint) (hq : q ∈ gs) (st : Words16) :
    readLane (gs.foldl qrs st) q = qrf (readLane st q) := by
  induction gs generalizing st with
  | nil => cases hq
  | cons p gs ih =>
    obtain ⟨hp, hgs⟩ := List.pairwise_cons.1 hgs
    rw [List.foldl_cons]
    obtain rfl | hq := List.mem_cons.1 hq
    · rw [readLane_foldl_qrs_of_disjoint hp, readLane_qrs]
    · rw [ih hgs hq, readLane_qrs_of_disjoint (hp q hq).symm]

/-- Every unit may read its words from the state before: no group before it has written them. -/
theorem useUnits_eq_foldl_qrs (hgs : gs.Pairwise Quad.Disjoint) (st : Words16) :
    useUnits st gs = gs.foldl qrs st := by
  suffices ∀ w : Words16, (∀ q ∈ gs, readLane w q = readLane st q) →
      gs.foldl (fun acc q => writeLane acc q (qrf (readLane st q))) w = gs.foldl qrs w from
    this st fun _ _ => rfl
  induction gs with
  | nil => exact fun _ _ => rfl
  | cons p gs ih =>
    intro w hw
    obtain ⟨hp, hgs⟩ := List.pairwise_cons.1 hgs
    obtain ⟨hwp, hw⟩ := List.forall_mem_cons.1 hw
    rw [List.foldl_cons, List.foldl_cons, ← hwp]
    refine ih hgs (qrs w p) fun q hq => ?_
    rw [readLane_qrs_of_disjoint (hp q hq).symm, hw q hq]

/-- Uses of units one after another are the quarter rounds of all their groups. -/
theorem foldl_useUnits {uses : List (List Quad)} (huses : uses.flatten.Pairwise Quad.Disjoint) (st : Words16) :
    uses.foldl useUnits st = uses.flatten.foldl qrs st := by
  induction uses generalizing st with
  | nil => rfl
  | cons gs uses ih =>
    obtain ⟨hgs, huses, -⟩ := List.pairwise_append.1 (List.flatten_cons ▸ huses)
    rw [List.foldl_cons, List.flatten_cons, List.foldl_append, ih huses, useUnits_eq_foldl_qrs hgs]

end disjointGroups

/-! ### The groups of a pass (R110 to R114, R124) -/

theorem groups_disjoint (k : PassKind) : k.groups.Pairwise Quad.Disjoint := (groups_pairwise_disjoint k).imp And.left

theorem exists_group_has (k : PassKind) (p : Pos) : ∃ q ∈ k.groups, q.Has p := by
  unfold Quad.Has
  revert p
  cases k <;> decide

theorem group_unique {k : PassKind} {p : Pos} {q q' : Quad} (hq : q ∈ k.groups) (hq' : q' ∈ k.groups)
    (hp : q.Has p) (hp' : q'.Has p) : q' = q := by
  have : Std.Symm Quad.Disjoint := ⟨fun _ _ h => h.symm⟩
  by_contra hne
  exact ((groups_disjoint k).forall hq' hq hne).not_has hp' hp

theorem readLane_runPass {k : PassKind} {q : Quad} (hq : q ∈ k.groups) (st : Words16) :
    readLane (runPass k st) q = qrf (readLane st q) := by
  rw [runPass_eq_foldl, readLane_foldl_qrs (groups_disjoint k) hq]

theorem Quad.has_iff {q : Quad} {p : Pos} : q.Has p ↔ q.a = p ∨ q.b = p ∨ q.c = p ∨ q.d = p := by
  simp only [Quad.Has, eq_comm]

/-- Settles O13: quarter rounds on disjoint groups commute, and each sees its own words only. -/
theorem passIsOrderIndependent : Obligations.PassIsOrderIndependent := by
  refine fun k => ⟨fun p => ?_, ?_, fun st gs hgs => ?_, fun st => ?_, fun st q hq => readLane_runPass hq st⟩
  · simp only [← Quad.has_iff]
    obtain ⟨q, hq, hp⟩ := exists_group_has k p
    exact ⟨q, ⟨hq, hp⟩, fun q' ⟨hq', hp'⟩ => group_unique hq hq' hp hp'⟩
  · cases k <;> decide
  · rw [runPass_eq_foldl, foldl_qrs_of_perm (groups_disjoint k) hgs.symm]
  · rw [runPass_eq_foldl, useUnits_eq_foldl_qrs (groups_disjoint k)]

/-- However many units there are, their uses take the groups of the pass in order. -/
theorem unitUses_flatten (n : Config.NQr) (k : PassKind) : (unitUses n k).flatten = k.groups := by
  cases n <;> cases k <;> rfl

/-- Settles O14: the uses of the units are the quarter rounds of the pass. -/
theorem passIndependentOfUnitCount : Obligations.PassIndependentOfUnitCount := by
  intro n k st
  rw [passWithUnits, foldl_useUnits, unitUses_flatten, runPass_eq_foldl]
  rw [unitUses_flatten]
  exact groups_disjoint k

/-! ### The schedule of passes (R115, R116) -/

theorem firstPasses_succ (m : Nat) (st : Words16) :
    firstPasses (m + 1) st = runPass (kindOfPass m) (firstPasses m st) := by
  simp only [firstPasses, List.range_succ, List.foldl_append, List.foldl_cons, List.foldl_nil]

theorem kindOfPass_even (n : Nat) : kindOfPass (2 * n) = .column := if_pos (by omega)

theorem kindOfPass_odd (n : Nat) : kindOfPass (2 * n + 1) = .diagonal := if_neg (by omega)

theorem iterate_doubleRound (n : Nat) (st : Words16) : doubleRound^[n] st = firstPasses (2 * n) st := by
  induction n with
  | zero => rfl
  | succ n ih =>
    calc doubleRound^[n + 1] st = doubleRound (firstPasses (2 * n) st) := by rw [Function.iterate_succ_apply', ih]
      _ = runPass .diagonal (runPass .column (firstPasses (2 * n) st)) := doubleRound_eq _
      _ = firstPasses (2 * n + 1 + 1) st := by
        rw [firstPasses_succ, firstPasses_succ, kindOfPass_even, kindOfPass_odd]

theorem mixF_eq_firstPasses (st : Words16) : mixF st = firstPasses 20 st := iterate_doubleRound 10 st

/-- Settles O15, by induction on the number of double rounds, each of which is the next two passes. -/
theorem mixIsTwentyAlternatingPasses : Obligations.MixIsTwentyAlternatingPasses :=
  ⟨iterate_doubleRound, fun st => ⟨mixF_eq st, mixF_eq_firstPasses st⟩⟩

/-! ### The passes are bijections and fix the zero state (R117) -/

theorem onLane_bijective {f : Lane → Lane} (hf : Function.Bijective f) (q : Quad) :
    Function.Bijective (onLane f q) := by
  obtain ⟨g, hgf, hfg⟩ := Function.bijective_iff_has_inverse.1 hf
  refine Function.bijective_iff_has_inverse.2 ⟨onLane g q, fun st => ?_, fun st => ?_⟩
  · rw [onLane_onLane, hgf.comp_eq_id]
    exact writeLane_readLane st q
  · rw [onLane_onLane, hfg.comp_eq_id]
    exact writeLane_readLane st q

theorem qrs_bijective (q : Quad) : Function.Bijective fun st => qrs st q :=
  onLane_bijective quarterRoundIsBijective.2 q

theorem foldl_qrs_bijective (gs : List Quad) : Function.Bijective fun st => gs.foldl qrs st := by
  induction gs with
  | nil => exact Function.bijective_id
  | cons q gs ih => exact ih.comp (qrs_bijective q)

theorem runPass_bijective (k : PassKind) : Function.Bijective (runPass k) := by
  rw [funext (runPass_eq_foldl k)]
  exact foldl_qrs_bijective k.groups

theorem doubleRound_bijective : Function.Bijective doubleRound := by
  have h : doubleRound = runPass .diagonal ∘ runPass .column := by
    funext st
    rw [doubleRound_eq, Function.comp_apply]
  rw [h]
  exact (runPass_bijective .diagonal).comp (runPass_bijective .column)

/-- The all-zero state. -/
def zeroWords : Words16 := Vector.replicate 16 0

theorem readLane_zeroWords (q : Quad) : readLane zeroWords q = { a := 0, b := 0, c := 0, d := 0 } := by
  simp [readLane, zeroWords]

/-- `QRF` gives back the four zero words it has read. -/
theorem qrs_zeroWords (q : Quad) : qrs zeroWords q = zeroWords := by
  rw [qrs, readLane_zeroWords, quarterRoundIsBijective.1, ← readLane_zeroWords q, writeLane_readLane]

theorem runPass_zeroWords (k : PassKind) : runPass k zeroWords = zeroWords := by
  rw [runPass_eq_foldl, List.foldl_fixed' qrs_zeroWords]

theorem doubleRound_zeroWords : doubleRound zeroWords = zeroWords := by
  rw [doubleRound_eq, runPass_zeroWords, runPass_zeroWords]

/-- Settles O16: each pass is quarter rounds one after another, and `QRF` is a bijection that fixes zero. -/
theorem passesAreBijective : Obligations.PassesAreBijective := by
  refine ⟨runPass_bijective .column, runPass_bijective .diagonal, doubleRound_bijective,
    doubleRound_bijective.iterate 10, ?_, by decide⟩
  simp only [List.forall_mem_cons]
  exact ⟨runPass_zeroWords .column, runPass_zeroWords .diagonal, doubleRound_zeroWords,
    Function.iterate_fixed doubleRound_zeroWords 10, fun _ h => absurd h List.not_mem_nil⟩

end Sys2Proof.Machine
end

section
/-! PROOFS. The statements about the commands of the state mixer (42_state_mixer.md). `COLR`, `DIAGR`, `DBLR` and `MIX`
are runs of passes, and any list of them is one run of all their passes. What a command gives out is said once for every
list of outputs given before; the schedule of every command, and that the outputs never act on the CORE, follow. -/

namespace Sys2Proof.Machine

variable {s : State}

/-! ### The commands that run passes on `W` (R119 to R123) -/

/-- The commands that run passes on `W` and do nothing else. -/
def mixerCommands : List Instr := [.colr, .diagr, .dblr, .mix]

/-- The passes of a list of commands, one command after another (R119). -/
def passesOfAll (is : List Instr) : List PassKind := is.flatMap fun i => passesOf i.opcode

/-- A mixer command runs the passes of its row of R119's table. -/
theorem exec_mixerCommand {i : Instr} (hi : i ∈ mixerCommands) (h : s.ERR = false) :
    exec i s = .next ((s.pass (passesOf i.opcode)).respond 0) := by
  simp only [mixerCommands, List.mem_cons, List.not_mem_nil, or_false] at hi
  obtain rfl | rfl | rfl | rfl := hi
  · exact exec_colr h
  · exact exec_diagr h
  · exact exec_dblr h
  · exact exec_mix h

/-- The frame of a command that runs passes and responds, and what it gives out. -/
theorem pass_respond_frame (s : State) (ks : List PassKind) :
    s.KeepsAllButW ((s.pass ks).respond 0) ∧
      s.Answers ((s.pass ks).respond 0) (runPasses ks 0 s.W).2 { data := 0, err := false } :=
  ⟨⟨rfl, rfl, rfl, rfl, rfl, rfl⟩, rfl⟩

/-- A mixer command with one pass. -/
theorem exec_onePass {i : Instr} {k : PassKind} (hi : i ∈ mixerCommands) (hk : passesOf i.opcode = [k])
    (h : s.ERR = false) :
    ∃ t, exec i s = .next t ∧ t.W = runPass k s.W ∧
      (∀ q ∈ k.groups, readLane t.W q = qrf (readLane s.W q)) ∧ s.KeepsAllButW t ∧
      s.Answers t [{ idx := 0, kind := k, snapshot := t.W }] { data := 0, err := false } := by
  refine ⟨_, exec_mixerCommand hi h, ?_⟩
  rw [hk]
  exact ⟨rfl, fun q hq => readLane_runPass hq s.W, pass_respond_frame s [k]⟩

/-- Settles O17: `COLR` and `DIAGR` are the two mixer commands with one pass. -/
theorem colrAndDiagrRunOnePass : Obligations.ColrAndDiagrRunOnePass :=
  ⟨rfl, rfl, fun _ hs => ⟨exec_onePass (i := .colr) (k := .column) (by decide) rfl hs,
    exec_onePass (i := .diagr) (k := .diagonal) (by decide) rfl hs⟩⟩

/-- Passes after passes with a response between them leave the tuple that all of them leave at once. -/
theorem pass_respond_pass_tuple (s : State) (ks ls : List PassKind) :
    (((s.pass ks).respond 0).pass ls).tuple = (s.pass (ks ++ ls)).tuple := by
  simp [State.tuple, runPasses_fst]

/-- Mixer commands one after another leave the tuple that one command with all their passes leaves. -/
theorem execList_mixerCommands {is : List Instr} (his : ∀ i ∈ is, i ∈ mixerCommands) {ks : List PassKind}
    (hks : passesOfAll is = ks) (h : s.ERR = false) :
    ∃ u, execList is s = .next u ∧ u.tuple = ((s.pass ks).respond 0).tuple := by
  subst hks
  induction is generalizing s with
  | nil => exact ⟨s, rfl, rfl⟩
  | cons i is ih =>
    obtain ⟨hi, his⟩ := List.forall_mem_cons.1 his
    obtain ⟨u, hu, htuple⟩ := ih his (s := (s.pass (passesOf i.opcode)).respond 0) (by simp [h])
    exact ⟨u, (execList_cons_of_next (exec_mixerCommand hi h)).trans hu,
      htuple.trans (pass_respond_pass_tuple s _ (passesOfAll is))⟩

/-- A double round's run: the second pass starts with index 1. -/
theorem runPasses_double (w : Words16) :
    runPasses [.column, .diagonal] 0 w =
      (diagRound (colRound w), [{ idx := 0, kind := .column, snapshot := colRound w },
        { idx := 1, kind := .diagonal, snapshot := diagRound (colRound w) }]) := rfl

/-- Settles O18: `DBLR` has the passes of `COLR` and of `DIAGR`. -/
theorem dblrRunsOneDoubleRound : Obligations.DblrRunsOneDoubleRound := by
  refine ⟨rfl, fun s hs => ⟨_, exec_dblr hs, ?_⟩⟩
  obtain ⟨hkeep, hanswers⟩ := pass_respond_frame s [.column, .diagonal]
  rw [State.respond_W, State.pass_W]
  rw [runPasses_double] at hanswers ⊢
  exact ⟨rfl, hkeep, hanswers, execList_mixerCommands (by decide) rfl hs⟩

/-! ### The schedule of `MIX` (R119, R123) -/

/-- The event of pass number p of the schedule, run on a working state. -/
def passEvent (w : Words16) (p : Nat) : Event :=
  { idx := BitVec.ofNat 5 p, kind := kindOfPass p, snapshot := firstPasses (p + 1) w }

/-- The mixer's run of the first m passes of the schedule. -/
theorem runPasses_schedule (m : Nat) (w : Words16) :
    runPasses ((List.range m).map kindOfPass) 0 w = (firstPasses m w, (List.range m).map (passEvent w)) := by
  induction m with
  | zero => rfl
  | succ m ih =>
    rw [List.range_succ, List.map_append, List.map_append, runPasses_append, ih]
    simp [runPasses, passEvent, firstPasses_succ]

theorem mixPasses_eq : mixPasses = (List.range 20).map kindOfPass := by decide

theorem runPasses_mixPasses (w : Words16) : runPasses mixPasses 0 w = (mixF w, mixEvents w) := by
  rw [mixPasses_eq, runPasses_schedule, mixF_eq_firstPasses]
  rfl

/-- Settles O19: ten `DBLR`, and twenty alternating `COLR` and `DIAGR`, have the passes of `MIX`. -/
theorem mixRunsTheFullSchedule : Obligations.MixRunsTheFullSchedule := by
  refine ⟨rfl, fun s hs => ⟨_, exec_mix hs, ?_⟩⟩
  obtain ⟨hkeep, hanswers⟩ := pass_respond_frame s mixPasses
  rw [State.respond_W, State.pass_W]
  rw [runPasses_mixPasses] at hanswers ⊢
  exact ⟨rfl, hkeep, hanswers, execList_mixerCommands (by decide) (by decide) hs,
    execList_mixerCommands (by decide) (by decide) hs⟩

/-! ### What a command gives out, whatever was given out before (R118, R119, R125) -/

/-- The same state with other outputs given out so far. -/
def State.withOutputs (s : State) (outs : List Output) : State := { s with outputs := outs }

/-- From s, f leads to t; and whatever had been given out before, f would lead to the same but for the outputs, to which
it adds `given`. -/
def GivesOut (f : State → Result) (s t : State) (given : List Output) : Prop :=
  f s = .next t ∧ ∀ outs, f (s.withOutputs outs) = .next (t.withOutputs (outs ++ given))

theorem GivesOut.outputs {f : State → Result} {t : State} {given : List Output} (h : GivesOut f s t given) :
    t.outputs = s.outputs ++ given := by
  obtain ⟨ht, hall⟩ := h
  have : t = t.withOutputs (s.outputs ++ given) := Host.Outcome.next.inj (ht.symm.trans (hall s.outputs))
  exact congrArg State.outputs this

theorem raiseFault_withOutputs (c : Cause) (s : State) (outs : List Output) :
    raiseFault c (s.withOutputs outs) =
      (raiseFault c s).withOutputs (outs ++ [.response { data := 0, err := true }]) := by
  obtain h | h := Bool.eq_false_or_eq_true s.ERR
  · rw [raiseFault_of_locked c h, raiseFault_of_locked c (s := s.withOutputs outs) h]; rfl
  · rw [raiseFault_of_unlocked c h, raiseFault_of_unlocked c (s := s.withOutputs outs) h]; rfl

section answers

variable {f : State → Result}

/-- A command that takes a fault. -/
theorem givesOut_raiseFault {c : Cause}
    (hf : ∀ outs, f (s.withOutputs outs) = .next (raiseFault c (s.withOutputs outs))) :
    GivesOut f s (raiseFault c s) [.response { data := 0, err := true }] :=
  ⟨hf s.outputs, fun outs => by rw [hf, raiseFault_withOutputs]⟩

/-- A command that only responds. -/
theorem givesOut_respond (v : Word)
    (hf : ∀ outs, f (s.withOutputs outs) = .next ((s.withOutputs outs).respond v)) :
    GivesOut f s (s.respond v) [.response { data := v, err := false }] :=
  ⟨hf s.outputs, hf⟩

/-- A read of the keystream buffer responds or takes a fault. -/
theorem givesOut_respondKey (v : Word)
    (hf : ∀ outs, f (s.withOutputs outs) = .next ((s.withOutputs outs).respondKey v)) :
    ∃ r, GivesOut f s (s.respondKey v) [.response r] := by
  obtain h | h := Bool.eq_false_or_eq_true s.KVALID
  · rw [respondKey_of_valid v h]
    exact ⟨_, givesOut_respond v fun outs => (hf outs).trans (congrArg _ (respondKey_of_valid v h))⟩
  · rw [respondKey_of_invalid v h]
    exact ⟨_, givesOut_raiseFault fun outs => (hf outs).trans (congrArg _ (respondKey_of_invalid v h))⟩

end answers

theorem exec_mixerCommand_givesOut {i : Instr} (hi : i ∈ mixerCommands) (h : s.ERR = false) :
    GivesOut (exec i) s ((s.pass (passesOf i.opcode)).respond 0)
      ((runPasses (passesOf i.opcode) 0 s.W).2.map .event ++ [.response { data := 0, err := false }]) := by
  refine ⟨exec_mixerCommand hi h, fun outs => ?_⟩
  rw [← List.append_assoc]
  exact exec_mixerCommand (s := s.withOutputs outs) hi h

theorem exec_block_givesOut (h : s.ERR = false) :
    GivesOut (exec .block) s ((s.copyS.pass mixPasses).feedForward.serializeW.respond 0)
      ((runPasses mixPasses 0 s.S).2.map .event ++ [.response { data := 0, err := false }]) := by
  refine ⟨exec_block h, fun outs => ?_⟩
  rw [← List.append_assoc]
  exact exec_block (s := s.withOutputs outs) h

/-- On a CORE that is not locked out a command gives out the events of its passes and then one response. -/
theorem exec_givesOut_of_unlocked (i : Instr) (h : s.ERR = false) :
    ∃ t w r, GivesOut (exec i) s t ((runPasses (passesOf i.opcode) 0 w).2.map .event ++ [.response r]) := by
  have h' (outs : List Output) : (s.withOutputs outs).ERR = false := h
  cases i with
  | addw pd ps => exact ⟨_, s.W, _, exec_addw h pd ps, fun outs => exec_addw (h' outs) pd ps⟩
  | xorw pd ps => exact ⟨_, s.W, _, exec_xorw h pd ps, fun outs => exec_xorw (h' outs) pd ps⟩
  | rolw pd n =>
    by_cases hn : n = 0
    · subst hn
      exact ⟨_, s.W, _, givesOut_raiseFault fun outs => exec_rolw_zero (h' outs) pd⟩
    · exact ⟨_, s.W, _, exec_rolw h pd n hn, fun outs => exec_rolw (h' outs) pd n hn⟩
  | qr a b c d =>
    by_cases hd : PositionsDistinct a b c d
    · exact ⟨_, s.W, _, exec_qr h a b c d hd, fun outs => exec_qr (h' outs) a b c d hd⟩
    · exact ⟨_, s.W, _, givesOut_raiseFault fun outs => exec_qr_repeated (h' outs) a b c d hd⟩
  | colr | diagr | dblr | mix => exact ⟨_, s.W, _, exec_mixerCommand_givesOut (by decide) h⟩
  | init => exact ⟨_, s.W, _, exec_init h, fun outs => exec_init (h' outs)⟩
  | ffwd => exact ⟨_, s.W, _, exec_ffwd h, fun outs => exec_ffwd (h' outs)⟩
  | ser => exact ⟨_, s.W, _, exec_ser h, fun outs => exec_ser (h' outs)⟩
  | block => exact ⟨_, s.S, _, exec_block_givesOut h⟩
  | lds j v => exact ⟨_, s.W, _, exec_lds h j v, fun outs => exec_lds (h' outs) j v⟩
  | rds j => exact ⟨_, s.W, _, givesOut_respond (s.readS j) fun outs => exec_rds (h' outs) j⟩
  | rdw j => exact ⟨_, s.W, _, givesOut_respond (s.readW j) fun outs => exec_rdw (h' outs) j⟩
  | rdkb j => exact ⟨_, s.W, givesOut_respondKey (s.readKB j) fun outs => exec_rdkb (h' outs) j⟩
  | rdkw j => exact ⟨_, s.W, givesOut_respondKey (s.readKW j) fun outs => exec_rdkw (h' outs) j⟩
  | rdst => exact ⟨_, s.W, _, givesOut_respond (statusWord s) fun outs => exec_rdst (s.withOutputs outs)⟩

/-- The events of a run of passes from index 0, as (idx, kind), whatever the working state. -/
theorem runPasses_idx_kind (ks : List PassKind) (w : Words16) :
    (runPasses ks 0 w).2.map (fun e => (e.idx.toNat, e.kind.bit.toNat)) =
      ks.mapIdx fun n k => (n % 32, k.bit.toNat) := by
  refine List.ext_getElem? fun n => ?_
  rw [List.getElem?_map, runPasses_getElem?, List.getElem?_mapIdx, Option.map_map]
  simp [Function.comp_def]

/-- Settles O20: what a command gives out are the events of its row of R119's table and one response. -/
theorem passScheduleOfEveryCommand : Obligations.PassScheduleOfEveryCommand := by
  intro i s hs
  obtain ⟨t, w, r, hgives⟩ := exec_givesOut_of_unlocked i hs
  refine ⟨t, _, r, hgives.1, hgives.outputs.trans (List.append_assoc ..).symm, ?_⟩
  rw [runPasses_idx_kind]
  cases i <;> rfl

/-! ### What has been given out never acts on the CORE (R29, R125) -/

theorem exec_givesOut (i : Instr) (s : State) : ∃ t given, GivesOut (exec i) s t given := by
  cases h : s.ERR with
  | false =>
    obtain ⟨t, w, r, hgives⟩ := exec_givesOut_of_unlocked i h
    exact ⟨t, _, hgives⟩
  | true =>
    by_cases hi : i = .rdst
    · subst hi
      exact ⟨_, _, givesOut_respond (statusWord s) fun outs => exec_rdst (s.withOutputs outs)⟩
    · exact ⟨_, _, exec_of_locked i h hi, fun outs => exec_of_locked (s := s.withOutputs outs) i h hi⟩

/-- A command word that does not decode, locked out or not: under lockout taking a fault is the refusal. -/
theorem step_of_illegalWord {cmd d : Word} {rest : List HostInput} {e : DecodeError}
    (hin : s.inputs = .command cmd d :: rest) (h : decode cmd d = .error e) :
    step s = .next (raiseFault (causeOf e) { s with inputs := rest }) := by
  obtain ⟨hE, -, ha⟩ | ⟨-, ⟨e', he, ha⟩ | ⟨i, hi, -⟩⟩ := accept_cases cmd d { s with inputs := rest }
  · rw [step_of_lockedOut hin ha, raiseFault_of_locked _ hE]
  · cases he.symm.trans h
    exact step_of_illegal hin ha
  · cases hi.symm.trans h

/-- A step whose command is accepted, its input taken off, does what f does. -/
theorem GivesOut.of_accepted {f : State → Result} {t : State} {given : List Output} {rest : List HostInput}
    (h : GivesOut f { s with inputs := rest } t given)
    (hstep : ∀ outs, step (s.withOutputs outs) = f (State.withOutputs { s with inputs := rest } outs)) :
    GivesOut step s t given :=
  ⟨(hstep s.outputs).trans h.1, fun outs => (hstep outs).trans (h.2 outs)⟩

theorem step_givesOut (s : State) : ∃ t given, GivesOut step s t given := by
  match hin : s.inputs with
  | [] =>
    refine ⟨s, [], step_idle hin, fun outs => ?_⟩
    rw [List.append_nil]
    exact step_idle (s := s.withOutputs outs) hin
  | .reset :: rest =>
    refine ⟨_, [], step_reset hin, fun outs => ?_⟩
    rw [List.append_nil]
    exact step_reset (s := s.withOutputs outs) hin
  | .command cmd d :: rest =>
    cases hd : decode cmd d with
    | error e =>
      have hgives := givesOut_raiseFault (s := { s with inputs := rest }) (c := causeOf e)
        (f := fun s => .next (raiseFault (causeOf e) s)) fun _ => rfl
      exact ⟨_, _, hgives.of_accepted fun outs => step_of_illegalWord (s := s.withOutputs outs) hin hd⟩
    | ok i =>
      obtain ⟨t, given, hgives⟩ := exec_givesOut i { s with inputs := rest }
      exact ⟨t, given, hgives.of_accepted fun outs => step_of_decode_ok (s := s.withOutputs outs) hin hd⟩

/-- Settles O42: no branch of a step reads the outputs. -/
theorem outputsNeverActOnTheCore : Obligations.OutputsNeverActOnTheCore := by
  intro s t outs ht
  obtain ⟨u, given, hgives⟩ := step_givesOut s
  obtain rfl : u = t := Host.Outcome.next.inj (hgives.1.symm.trans ht)
  exact ⟨given, hgives.outputs, hgives.2 outs⟩

end Sys2Proof.Machine
end

section
/-! PROOFS. The statements about the block generator (43_block_generator.md): the word-wise sum, the serializer, and the
commands `INIT`, `FFWD`, `SER` and `BLOCK`. `BLOCK` is compared with its four steps through what any run of the twenty
passes leaves between `INIT` and `FFWD`. -/

namespace Sys2Proof.Machine

variable {s : State}

/-! ### `INIT` and `FFWD` (R131, R136, R137) -/

/-- Settles O21: `INIT` writes the working words, and they are those of `S`. -/
theorem initCopiesInitialState : Obligations.InitCopiesInitialState :=
  ⟨rfl, fun s hs => ⟨_, exec_init hs, fun _ => rfl, setW_respond_frame s s.S⟩⟩

/-- `FEEDFWD` adds word by word. -/
theorem feedFwd_toNat (mixed orig : Words16) (i : Pos) :
    (feedFwd mixed orig)[i].toNat = (mixed[i].toNat + orig[i].toNat) % 2 ^ 32 := by
  rw [feedFwd, vector_ofFn_getElem, add32_toNat]

/-- Settles O22: `FFWD` writes the working words, and they are the sums. -/
theorem ffwdAddsInitialState : Obligations.FfwdAddsInitialState :=
  ⟨rfl, fun s hs => ⟨_, exec_ffwd hs, feedFwd_toNat s.W s.S, setW_respond_frame s _⟩⟩

/-! ### `SERIALIZE` and `SER` (R133, R138) -/

/-- The serialized bytes of word i. -/
theorem serialize_toNat (st : Words16) (i : Pos) (k : Fin 4) :
    ((serialize st)[4 * i.val + k.val]).toNat = bits st[i] (8 * k.val + 7) (8 * k.val) := by
  rw [serialize_getElem, byteOf_toNat]

/-- Settles O27: `LE32` of a word's four bytes is the word view of a buffer that holds the serialized state. -/
theorem serializeIsLittleEndianAndInvertible : Obligations.SerializeIsLittleEndianAndInvertible := by
  refine fun st i => ⟨serialize_toNat st i, ?_⟩
  exact readKW_of_serialized (s := State.reset.setKB (serialize st)) rfl i

/-- Settles O23: `SER` sets `KVALID` and writes the bytes of `W` into the buffer. -/
theorem serSerializesWorkingState : Obligations.SerSerializesWorkingState := by
  refine ⟨rfl, fun s hs => ⟨_, exec_ser hs, fun i k => ?_, by simp [State.Answers]⟩⟩
  simpa only [State.respond_KB, State.serializeW_KB] using serialize_toNat s.W i k

/-! ### `BLOCK` (R134, R139) -/

/-- The full schedule as `MIXF` and the events of `MIX`. -/
theorem pass_mixPasses (s : State) : s.pass mixPasses = (s.setW (mixF s.W)).emit (mixEvents s.W) := by
  rw [State.pass, runPasses_mixPasses]

/-- The state `BLOCK` leaves: its four steps and one response. -/
def State.afterBlock (s : State) : State := (s.copyS.pass mixPasses).feedForward.serializeW.respond 0

theorem exec_block_eq (h : s.ERR = false) : exec .block s = .next s.afterBlock := exec_block h

theorem afterBlock_W (s : State) : s.afterBlock.W = feedFwd (mixF s.S) s.S := by
  simp [State.afterBlock, pass_mixPasses]

theorem afterBlock_KB (s : State) : s.afterBlock.KB = serialize s.afterBlock.W := by
  simp [State.afterBlock, pass_mixPasses]

/-- The frame of `BLOCK`, and what it gives out. -/
theorem afterBlock_frame (s : State) :
    s.afterBlock.KVALID = true ∧ s.afterBlock.S = s.S ∧ s.afterBlock.ERR = s.ERR ∧
      s.afterBlock.ERRCODE = s.ERRCODE ∧ s.afterBlock.inputs = s.inputs ∧
      s.Answers s.afterBlock (mixEvents s.S) { data := 0, err := false } := by
  simp [State.Answers, State.afterBlock, pass_mixPasses]

/-- Settles O24: the mixer's run on the copy of `S` is `MIXF`, and `KB` is the bytes of what the feed-forward leaves. -/
theorem blockComputesBlockFunction : Obligations.BlockComputesBlockFunction := by
  refine ⟨rfl, fun s hs => ⟨s.afterBlock, exec_block_eq hs, ?_, fun i => ?_, fun i k => ?_, afterBlock_frame s⟩⟩
  · rw [afterBlock_KB, afterBlock_W, blockF_eq]
  · rw [afterBlock_W, feedFwd_toNat]
  · simpa only [afterBlock_KB] using serialize_toNat s.afterBlock.W i k

/-! ### `BLOCK` as four commands (R140) -/

/-- What `FFWD` and then `SER` leave of a mixed state u. -/
def State.finishBlock (u : State) : State := (u.feedForward.respond 0).serializeW.respond 0

/-- `INIT`, commands that mix, `FFWD` and `SER`, one after another. -/
theorem execList_blockSteps {mix : List Instr} {u : State} (h : s.ERR = false)
    (hmix : execList mix (s.copyS.respond 0) = .next u) (hu : u.ERR = false) :
    execList ([.init] ++ mix ++ [.ffwd, .ser]) s = .next u.finishBlock := by
  have hinit : execList ([.init] ++ mix) s = .next u := (execList_cons_of_next (exec_init h)).trans hmix
  have hffwd := exec_ffwd hu
  have hser : exec .ser (u.feedForward.respond 0) = .next u.finishBlock := exec_ser (by simpa using hu)
  rw [execList_append hinit, execList_cons_of_next hffwd, execList_cons_of_next hser, execList]

/-- A mixed state with the tuple that `MIX` leaves after `INIT` is finished to the tuple that `BLOCK` leaves. -/
theorem finishBlock_tuple {u : State} (hu : u.tuple = (((s.copyS.respond 0).pass mixPasses).respond 0).tuple) :
    u.finishBlock.tuple = s.afterBlock.tuple := by
  simp only [State.tuple, Prod.mk.injEq] at hu
  obtain ⟨hS, hW, -, -, hERR, hCODE⟩ := hu
  simp [State.tuple, State.finishBlock, State.afterBlock, hS, hW, hERR, hCODE]

theorem ERR_eq_of_tuple_eq {u v : State} (h : u.tuple = v.tuple) : u.ERR = v.ERR := by
  obtain ⟨-, -, -, -, hERR, -⟩ := by simpa only [State.tuple, Prod.mk.injEq] using h
  exact hERR

/-- Mixer commands that run the twenty passes may stand for `MIX` between `INIT` and `FFWD`. -/
theorem execList_blockSteps_tuple {mix : List Instr} (h : s.ERR = false) (hcommands : ∀ i ∈ mix, i ∈ mixerCommands)
    (hpasses : passesOfAll mix = mixPasses) :
    ∃ v, execList ([.init] ++ mix ++ [.ffwd, .ser]) s = .next v ∧ v.tuple = s.afterBlock.tuple := by
  have hcopy : (s.copyS.respond 0).ERR = false := by simpa using h
  obtain ⟨u, hmix, htuple⟩ := execList_mixerCommands hcommands hpasses hcopy
  have hu : u.ERR = false := (ERR_eq_of_tuple_eq htuple).trans (by simpa using h)
  exact ⟨_, execList_blockSteps h hmix hu, finishBlock_tuple htuple⟩

/-- Settles O25: `MIX`, ten `DBLR` and twenty alternating `COLR` and `DIAGR` are mixer commands with the same passes. -/
theorem blockEqualsItsFourSteps : Obligations.BlockEqualsItsFourSteps := by
  intro s hs
  obtain ⟨-, -, -, -, hinputs, hanswers⟩ := afterBlock_frame s
  have hcopy : (s.copyS.respond 0).ERR = false := by simpa using hs
  have hmix : execList [.mix] (s.copyS.respond 0) = .next (((s.copyS.respond 0).pass mixPasses).respond 0) :=
    execList_cons_of_next (exec_mix hcopy)
  refine ⟨s.afterBlock, _, mixEvents s.S, exec_block_eq hs, execList_blockSteps hs hmix (by simpa using hs),
    (finishBlock_tuple rfl).symm, by simp [hinputs, State.finishBlock], hanswers, by simp [mixEvents],
    by simp [State.finishBlock, pass_mixPasses], fun mix hmem => ?_⟩
  simp only [List.mem_cons, List.not_mem_nil, or_false] at hmem
  obtain rfl | rfl := hmem
  · exact execList_blockSteps_tuple hs (by decide) (by decide)
  · exact execList_blockSteps_tuple hs (by decide) (by decide)

end Sys2Proof.Machine
end

section
/-! PROOFS. The statements about host access to the state (44_state_access.md): the commands `LDS`, `RDS`, `RDW`, `RDKB`
and `RDKW` on a CORE that is not locked out, and `RDST` with the status word of 10_state.md R27. -/

namespace Sys2Proof.Machine

variable {s : State}

/-! ### `LDS`, `RDS` and `RDW` (R150 to R152) -/

/-- A command that only responds. -/
theorem respond_frame (s : State) (v : Word) :
    s.KeepsAll (s.respond v) ∧ s.Answers (s.respond v) [] { data := v, err := false } :=
  ⟨⟨rfl, rfl⟩, answers_respond s v⟩

/-- Settles O29: `S[i]` is written and nothing else. -/
theorem ldsLoadsOneInitialWord : Obligations.LdsLoadsOneInitialWord := by
  refine fun i v => ⟨encode_cmd_of_eq rfl, rfl, fun s hs => ⟨_, exec_lds hs i v, ?_, fun k hk => ?_,
    ⟨rfl, rfl, rfl, rfl, rfl, rfl⟩, answers_respond (s.writeS i v) 0⟩⟩
  · rw [State.respond_S, State.writeS_S, vector_set_self]
  · rw [State.respond_S, State.writeS_S, vector_set_ne _ _ hk]

/-- Settles O30: both reads only respond. -/
theorem rdsAndRdwReadOneWord : Obligations.RdsAndRdwReadOneWord :=
  fun i => ⟨encode_cmd_of_eq rfl, encode_cmd_of_eq rfl, fun s hs =>
    ⟨⟨_, exec_rds hs i, respond_frame s _⟩, ⟨_, exec_rdw hs i, respond_frame s _⟩⟩⟩

/-! ### The keystream reads (R153, R154) -/

/-- A keystream read responds and does nothing else, or takes fault code 5, as `KVALID` is 1 or 0. -/
theorem respondKey_valid_or_fault (hs : s.Unlocked) (v : Word) :
    (s.KVALID = true → s.KeepsAll (s.respondKey v) ∧ s.Answers (s.respondKey v) [] { data := v, err := false }) ∧
      (s.KVALID = false → s.TakesFault .keystreamNotValid (s.respondKey v)) := by
  refine ⟨fun hk => ?_, fun hk => ?_⟩
  · rw [respondKey_of_valid v hk]; exact respond_frame s v
  · rw [respondKey_of_invalid v hk]; exact takesFault_raiseFault _ hs

/-- The byte view is the number of the byte: nothing is sign-extended (R156). -/
theorem readKB_eq_ofNat (s : State) (j : ByteIdx) : s.readKB j = BitVec.ofNat 32 s.KB[j].toNat :=
  (BitVec.ofNat_toNat 32 s.KB[j]).symm

/-- Settles O31: both reads respond through `State.respondKey`, with the byte or with `LE32` of the four bytes. -/
theorem keystreamReadsNeedAValidBlock : Obligations.KeystreamReadsNeedAValidBlock := by
  refine ⟨fun _ => encode_cmd_of_eq rfl, fun _ => encode_cmd_of_eq rfl, fun s hs => ⟨fun j => ?_, fun i => ?_⟩⟩
  · rw [← readKB_eq_ofNat]
    exact ⟨_, exec_rdkb hs j, respondKey_valid_or_fault hs _⟩
  · exact ⟨_, exec_rdkw hs i, respondKey_valid_or_fault hs (s.readKW i)⟩

/-! ### The status word and `RDST` (R27, R155) -/

/-- The status word as a number: `ERRCODE`, `ERR` and `KVALID` at their places, all other bits 0 (R27). -/
theorem statusWord_toNat (s : State) :
    (statusWord s).toNat = 2 ^ 4 * s.ERRCODE.code.toNat + 2 * s.ERR.toNat + s.KVALID.toNat := by
  have hcode := s.ERRCODE.code.isLt
  have herr := s.ERR.toNat_lt
  have hvalid := s.KVALID.toNat_lt
  rw [statusWord, BitVec.toNat_setWidth_of_le (by decide)]
  simp only [BitVec.toNat_append, BitVec.toNat_ofBool]
  rw [← Nat.shiftLeft_add_eq_or_of_lt hvalid, ← Nat.shiftLeft_add_eq_or_of_lt herr]
  simp only [BitVec.toNat_ofNat, Nat.zero_mod, Nat.or_zero, Nat.shiftLeft_eq]
  omega

/-- The fields of the status word (R27). -/
theorem statusWord_fields (s : State) :
    bits (statusWord s) 0 0 = s.KVALID.toNat ∧ bits (statusWord s) 1 1 = s.ERR.toNat ∧
      bits (statusWord s) 3 2 = 0 ∧ bits (statusWord s) 31 8 = 0 ∧
      bits (statusWord s) 7 4 = s.ERRCODE.code.toNat := by
  have hcode := s.ERRCODE.code.isLt
  have herr := s.ERR.toNat_lt
  have hvalid := s.KVALID.toNat_lt
  simp only [bits, statusWord_toNat]
  omega

/-- With `ERR` = 0 exactly when `ERRCODE` is 0, the status word is one of twelve values (R27). -/
theorem statusWord_mem_of_legal (hs : s.Legal) :
    statusWord s ∈ ([0x00, 0x01, 0x12, 0x13, 0x22, 0x23, 0x32, 0x33, 0x42, 0x43, 0x52, 0x53] : List Word) := by
  obtain ⟨herr, -⟩ := hs
  unfold statusWord
  cases hcode : s.ERRCODE with
  | noFault =>
    rw [herr.2 hcode]
    cases s.KVALID <;> decide
  | cause c =>
    have hset : s.ERR = true := by simpa [hcode] using herr
    rw [hset]
    cases c <;> cases s.KVALID <;> decide

/-- Settles O32: `RDST` does not look at `ERR`, and in a legal state `ERR` is read off `ERRCODE`. -/
theorem rdstRespondsStatusWord : Obligations.RdstRespondsStatusWord := by
  refine ⟨rfl, fun s => ⟨⟨_, exec_rdst s, respond_frame s _⟩, ?_⟩⟩
  obtain ⟨hvalid, herr, hzero, hupper, hcode⟩ := statusWord_fields s
  refine ⟨hvalid, herr, hzero, hupper, hcode.trans ?_, statusWord_mem_of_legal⟩
  cases s.ERRCODE with
  | noFault => rfl
  | cause c => cases c <;> rfl

end Sys2Proof.Machine
end

section
/-! PROOFS. The statements about the host's contract (45_host_contract.md): `init_state`, `xor_stream` whole and fed in
pieces, and the commands with which the host has the CORE compute a block. A stream is followed by the number of bytes
it has given, and the command port by the commands' own meanings. -/

namespace Sys2Proof.Machine

/-! ### `init_state` (R171, R172, R174, R183) -/

theorem initState_of_lengths {key nonce : List Byte} (counter : Word) (h : key.length = 32 ∧ nonce.length = 12) :
    initState key counter nonce = .ok (initWords key counter nonce) := by
  rw [initState, lengthErrors_eq_nil.2 h]

/-- With a wrong length `init_state` reports one of the length errors that apply. -/
theorem initState_eq_error {key nonce : List Byte} (counter : Word) (h : ¬ (key.length = 32 ∧ nonce.length = 12)) :
    ∃ e ∈ lengthErrors key nonce, initState key counter nonce = .error e := by
  unfold initState
  cases hl : lengthErrors key nonce with
  | nil => exact absurd (lengthErrors_eq_nil.1 hl) h
  | cons e es => exact ⟨_, pickError_mem e es _, rfl⟩

section initWords

variable (key : List Byte) (counter : Word) (nonce : List Byte)

theorem initWords_getElem (i : Pos) :
    (initWords key counter nonce)[i] =
      if i.val < 4 then wordAt sigma i.val
      else if i.val < 12 then wordAt key (i.val - 4)
      else if i.val = 12 then counter
      else wordAt nonce (i.val - 13) := by
  rw [initWords, vector_ofFn_getElem]

theorem initWords_sigma (m : Fin 4) : (initWords key counter nonce)[m.val] = wordAt sigma m.val :=
  (initWords_getElem key counter nonce ⟨m.val, by omega⟩).trans (if_pos m.isLt)

theorem initWords_key (m : Fin 8) : (initWords key counter nonce)[4 + m.val] = wordAt key m.val := by
  refine (initWords_getElem key counter nonce ⟨4 + m.val, by omega⟩).trans ?_
  rw [if_neg (by simp), if_pos (by simp; omega), Nat.add_sub_cancel_left]

theorem initWords_counter : (initWords key counter nonce)[12] = counter := initWords_getElem key counter nonce 12

theorem initWords_nonce (m : Fin 3) : (initWords key counter nonce)[13 + m.val] = wordAt nonce m.val := by
  refine (initWords_getElem key counter nonce ⟨13 + m.val, by omega⟩).trans ?_
  rw [if_neg (by simp; omega), if_neg (by simp; omega), if_neg (by simp; omega), Nat.add_sub_cancel_left]

/-- The next counter value changes word 12 and no other (R175). -/
theorem initWords_set_counter (next : Word) :
    (initWords key counter nonce).set 12 next = initWords key next nonce := by
  refine vector_ext fun k => (vector_set_getElem _ 12 k next).trans ?_
  rw [initWords_getElem, initWords_getElem]
  by_cases hk : 12 = k
  · subst hk; rfl
  · have : k.val ≠ 12 := fun h => hk (Fin.ext h.symm)
    rw [if_neg hk, if_neg this, if_neg this]

end initWords

/-- Settles O52: the words of each part of the state, or one of the length errors that apply. -/
theorem initStateBuildsTheSixteenWords : Obligations.InitStateBuildsTheSixteenWords := by
  refine fun key counter nonce => ⟨fun h => ⟨_, initState_of_lengths counter h, ?_, ?_, ?_, ?_,
    initWords_key key counter nonce, initWords_counter key counter nonce,
    initWords_nonce key counter nonce⟩, fun h => ?_⟩
  · exact initWords_sigma key counter nonce 0
  · exact initWords_sigma key counter nonce 1
  · exact initWords_sigma key counter nonce 2
  · exact initWords_sigma key counter nonce 3
  · obtain ⟨e, he, hinit⟩ := initState_eq_error counter h
    exact ⟨e, hinit, mem_lengthErrors.1 he⟩

/-! ### `xor_stream` (R177, R180, R181, R187) -/

section xorStream

variable {key nonce : List Byte} {c0 : Word} {input output : List Byte}

theorem mem_streamErrors {len : Nat} {e : HostError} :
    e ∈ streamErrors key nonce c0 len ↔
      e ∈ lengthErrors key nonce ∨ (e = .counterOverflow ∧ c0.toNat + blocksNeeded len > 2 ^ 32) := by
  rw [streamErrors, List.mem_append]
  by_cases hover : c0.toNat + blocksNeeded len > 2 ^ 32
  · simp only [hover, if_true, and_true, List.mem_singleton]
  · simp only [hover, if_false, and_false, List.not_mem_nil]

/-- When some error applies, `xor_stream` reports one that applies. -/
theorem xorStream_eq_error (h : streamErrors key nonce c0 input.length ≠ []) :
    ∃ e ∈ streamErrors key nonce c0 input.length, xorStream key nonce c0 input = .error e := by
  unfold xorStream
  cases hl : streamErrors key nonce c0 input.length with
  | nil => exact absurd hl h
  | cons e es => exact ⟨_, pickError_mem e es _, rfl⟩

theorem length_of_xorStream (h : xorStream key nonce c0 input = .ok output) : output.length = input.length := by
  obtain ⟨-, rfl⟩ := xorStream_eq_ok.1 h
  exact List.length_mapIdx

/-- A byte of a call that is not rejected lies in a block whose counter value is below `2^32`. -/
theorem counter_lt_of_streamErrors {p : Nat} (h : streamErrors key nonce c0 input.length = [])
    (hp : p < input.length) : c0.toNat + p / 64 < 2 ^ 32 := by
  obtain ⟨-, hroom⟩ := streamErrors_eq_nil.1 h
  simp only [blocksNeeded] at hroom
  omega

end xorStream

/-- Settles O53: `xor_stream` succeeds exactly when no error applies. -/
theorem xorStreamRejectsBeforeTheCounterWraps : Obligations.XorStreamRejectsBeforeTheCounterWraps := by
  refine fun key nonce c0 input => ⟨fun ⟨hkey, hnonce, hroom⟩ => ?_, fun hbad => ?_⟩
  · have hok := xorStream_eq_ok.2 ⟨streamErrors_eq_nil.2 ⟨⟨hkey, hnonce⟩, hroom⟩, rfl⟩
    exact ⟨_, hok, length_of_xorStream hok⟩
  · have hne : streamErrors key nonce c0 input.length ≠ [] := fun hnil =>
      hbad (and_assoc.1 (streamErrors_eq_nil.1 hnil))
    obtain ⟨e, he, herror⟩ := xorStream_eq_error hne
    refine ⟨e, herror, ?_⟩
    rwa [mem_streamErrors, mem_lengthErrors, or_assoc] at he

/-- Settles O54: the block of a byte is the block function of the initial state with its own counter value. -/
theorem xorStreamXorsTheKeystream : Obligations.XorStreamXorsTheKeystream := by
  refine ⟨fun key nonce c0 input output hok => ⟨length_of_xorStream hok, fun p hp => ?_⟩,
    fun key nonce c0 hkey hnonce => xorStream_eq_ok.2 ⟨?_, rfl⟩⟩
  · obtain ⟨hnil, rfl⟩ := xorStream_eq_ok.1 hok
    obtain ⟨hlengths, -⟩ := streamErrors_eq_nil.1 hnil
    refine ⟨counter_lt_of_streamErrors hnil hp, _, initState_of_lengths _ hlengths, ?_⟩
    rw [List.getElem?_mapIdx, List.getElem?_eq_getElem hp]
    rfl
  · rw [List.length_nil, streamErrors_zero, lengthErrors_eq_nil.2 ⟨hkey, hnonce⟩]

/-- Settles O55: the errors depend on the length alone, and XOR with the same keystream byte twice cancels. -/
theorem xorStreamIsAnInvolution : Obligations.XorStreamIsAnInvolution := by
  intro key nonce c0 input output hok
  obtain ⟨hnil, hout⟩ := xorStream_eq_ok.1 hok
  rw [← length_of_xorStream hok] at hnil
  refine xorStream_eq_ok.2 ⟨hnil, ?_⟩
  rw [hout, List.mapIdx_mapIdx]
  refine List.ext_getElem? fun p => ?_
  simp [List.getElem?_mapIdx, Function.comp_def]

/-! ### A stream fed in pieces (R176, R178, R179, R187, R240) -/

namespace HostStream

variable {key nonce : List Byte} {h : HostStream}

/-- With a wrong length the start of a stream reports one of the length errors that apply. -/
theorem start_eq_error (c0 : Word) (hbad : ¬ (key.length = 32 ∧ nonce.length = 12)) :
    ∃ e ∈ lengthErrors key nonce, start key nonce c0 = .error e := by
  rw [start, streamErrors_zero]
  cases hl : lengthErrors key nonce with
  | nil => exact absurd (lengthErrors_eq_nil.1 hl) hbad
  | cons e es => exact ⟨_, pickError_mem e es _, rfl⟩

/-- The pieces overflow together exactly when the first does, or the second does after it. -/
theorem feed_append (xs ys : List Byte) :
    h.feed (xs ++ ys) =
      match h.feed xs with
      | .error e => .error e
      | .ok (out, h') =>
        match h'.feed ys with
        | .error e => .error e
        | .ok (out', h'') => .ok (out ++ out', h'') := by
  have hblocks := newBlocks_append (h := h) xs ys
  obtain ⟨hcounter, -⟩ := feedBytes_counter_unused (h := h) xs
  by_cases hxs : h.counter + h.newBlocks xs.length > 2 ^ 32
  · rw [feed_of_overflow hxs, feed_of_overflow (by omega)]
  · rw [feed_of_room (Nat.not_lt.1 hxs)]
    by_cases hys : (h.feedBytes xs).2.counter + (h.feedBytes xs).2.newBlocks ys.length > 2 ^ 32
    · simp only [feed_of_overflow hys, feed_of_overflow (h := h) (piece := xs ++ ys) (by omega)]
    · simp only [feed_of_room (Nat.not_lt.1 hys), feed_of_room (h := h) (piece := xs ++ ys) (by omega),
        feedBytes_append]

/-- The stream of a key, a nonce and a first counter value c after p bytes, with b blocks made: the bytes of these
blocks from byte p on are unused. -/
def after (key nonce : List Byte) (c p b : Nat) : HostStream :=
  { key := key, nonce := nonce, counter := c + b,
    unused := (List.range' p (64 * b - p)).map (keystreamByte key nonce c) }

variable {c p : Nat}

/-- Block number q is 64 bytes of the keystream, from byte `64 * q` on. -/
theorem streamBlock_toList (q : Nat) :
    (streamBlock key nonce (c + q) 0).toList = (List.range' (64 * q) 64).map (keystreamByte key nonce c) := by
  refine List.ext_getElem (by simp) fun n hn _ => ?_
  have hn' : n < 64 := by simpa using hn
  have hq : (64 * q + n) / 64 = q := by omega
  have hr : (64 * q + n) % 64 = n := by omega
  simp [keystreamByte, streamBlock, hq, hr]

/-- Made ready after p bytes, a stream has made the blocks that `p + 1` bytes need. -/
theorem ready_after : (after key nonce c p (blocksNeeded p)).ready = after key nonce c p (blocksNeeded (p + 1)) := by
  by_cases hp : p % 64 = 0
  · obtain ⟨q, rfl⟩ : ∃ q, p = 64 * q := ⟨p / 64, by omega⟩
    have hmade : blocksNeeded (64 * q) = q := by simp only [blocksNeeded]; omega
    have hneeded : blocksNeeded (64 * q + 1) = q + 1 := by simp only [blocksNeeded]; omega
    have hlen : 64 * (q + 1) - 64 * q = 64 := by omega
    simp [ready, refill, after, hmade, hneeded, hlen, streamBlock_toList, Nat.add_assoc]
  · have hsame : blocksNeeded (p + 1) = blocksNeeded p := by simp only [blocksNeeded]; omega
    have hrest : 64 * blocksNeeded p - p ≠ 0 := by simp only [blocksNeeded]; omega
    rw [hsame, ready, if_neg]
    simpa [after] using hrest

/-- The stream with one more byte to give, before its unused bytes. -/
def withByte (h : HostStream) (x : Byte) : HostStream := { h with unused := x :: h.unused }

/-- A byte fed to a stream whose next keystream byte is x. -/
theorem feedBytes_cons_of_ready {r : HostStream} {x : Byte} (hready : h.ready = r.withByte x) (b : Byte)
    (bs : List Byte) : h.feedBytes (b :: bs) = ((b ^^^ x) :: (r.feedBytes bs).1, (r.feedBytes bs).2) := by
  simp [feedBytes, hready, withByte]

/-- The next byte to give is keystream byte p. -/
theorem after_eq_withByte :
    after key nonce c p (blocksNeeded (p + 1)) =
      (after key nonce c (p + 1) (blocksNeeded (p + 1))).withByte (keystreamByte key nonce c p) := by
  have hlen : 64 * blocksNeeded (p + 1) - p = 64 * blocksNeeded (p + 1) - (p + 1) + 1 := by
    simp only [blocksNeeded]; omega
  simp only [after, withByte, hlen, List.range'_succ, List.map_cons]

/-- Bytes fed after p bytes are XORed with the keystream bytes from p on. -/
theorem feedBytes_after (input : List Byte) :
    (after key nonce c p (blocksNeeded p)).feedBytes input =
      (input.mapIdx fun i b => b ^^^ keystreamByte key nonce c (p + i),
        after key nonce c (p + input.length) (blocksNeeded (p + input.length))) := by
  induction input generalizing p with
  | nil => rfl
  | cons b bs ih =>
    rw [feedBytes_cons_of_ready (ready_after.trans after_eq_withByte), ih]
    simp only [List.mapIdx_cons, List.length_cons, Nat.add_zero, Nat.add_assoc, Nat.add_comm 1]

theorem start_eq_after (c0 : Word) (hlengths : key.length = 32 ∧ nonce.length = 12) :
    start key nonce c0 = .ok (after key nonce c0.toNat 0 (blocksNeeded 0)) :=
  start_of_lengths c0 hlengths.1 hlengths.2

/-- Where `xor_stream` succeeds, the stream that starts there gives its output. -/
theorem feed_of_xorStream {c0 : Word} {input output : List Byte} (hok : xorStream key nonce c0 input = .ok output) :
    (after key nonce c0.toNat 0 (blocksNeeded 0)).feed input =
      .ok (output, after key nonce c0.toNat input.length (blocksNeeded input.length)) := by
  obtain ⟨hnil, rfl⟩ := xorStream_eq_ok.1 hok
  obtain ⟨-, hroom⟩ := streamErrors_eq_nil.1 hnil
  rw [feed_of_room hroom, feedBytes_after]
  simp only [Nat.zero_add]

end HostStream

/-- Settles O56: a stream that has given p bytes holds the keystream from byte p on, and two pieces take the blocks
that the same bytes take at once. -/
theorem streamingEqualsXorStream : Obligations.StreamingEqualsXorStream := by
  refine ⟨fun h xs ys => HostStream.feed_append xs ys, fun key nonce c0 input =>
    ⟨fun output hok => ?_, fun hbad => ?_, fun hkey hnonce hover => ?_⟩⟩
  · obtain ⟨hnil, -⟩ := xorStream_eq_ok.1 hok
    obtain ⟨hlengths, -⟩ := streamErrors_eq_nil.1 hnil
    exact ⟨_, _, HostStream.start_eq_after c0 hlengths, HostStream.feed_of_xorStream hok, rfl⟩
  · obtain ⟨e, he, hstart⟩ := HostStream.start_eq_error c0 hbad
    exact ⟨e, hstart, mem_lengthErrors.1 he⟩
  · exact ⟨_, HostStream.start_eq_after c0 ⟨hkey, hnonce⟩, HostStream.feed_of_overflow hover⟩

/-! ### Commands on the command port (R60, R244) -/

/-- The same state with other things for the host to present. -/
def State.withInputs (s : State) (ins : List HostInput) : State := { s with inputs := ins }

section port

variable {s t : State}

theorem raiseFault_withInputs (c : Cause) (s : State) (ins : List HostInput) :
    raiseFault c (s.withInputs ins) = (raiseFault c s).withInputs ins := by
  obtain h | h := Bool.eq_false_or_eq_true s.ERR
  · rw [raiseFault_of_locked c h, raiseFault_of_locked c (s := s.withInputs ins) h]; rfl
  · rw [raiseFault_of_unlocked c h, raiseFault_of_unlocked c (s := s.withInputs ins) h]; rfl

theorem respondKey_withInputs (v : Word) (s : State) (ins : List HostInput) :
    (s.withInputs ins).respondKey v = (s.respondKey v).withInputs ins := by
  obtain h | h := Bool.eq_false_or_eq_true s.KVALID
  · rw [respondKey_of_valid v h, respondKey_of_valid v (s := s.withInputs ins) h]; rfl
  · rw [respondKey_of_invalid v h, respondKey_of_invalid v (s := s.withInputs ins) h, raiseFault_withInputs]

/-- On a CORE that is not locked out no command looks at what the host presents next. -/
theorem exec_withInputs_of_unlocked (i : Instr) (h : s.ERR = false) :
    ∃ t, exec i s = .next t ∧ ∀ ins, exec i (s.withInputs ins) = .next (t.withInputs ins) := by
  have h' (ins : List HostInput) : (s.withInputs ins).ERR = false := h
  cases i with
  | addw pd ps => exact ⟨_, exec_addw h pd ps, fun ins => exec_addw (h' ins) pd ps⟩
  | xorw pd ps => exact ⟨_, exec_xorw h pd ps, fun ins => exec_xorw (h' ins) pd ps⟩
  | rolw pd n =>
    by_cases hn : n = 0
    · subst hn
      exact ⟨_, exec_rolw_zero h pd, fun ins => by rw [exec_rolw_zero (h' ins), raiseFault_withInputs]⟩
    · exact ⟨_, exec_rolw h pd n hn, fun ins => exec_rolw (h' ins) pd n hn⟩
  | qr a b c d =>
    by_cases hd : PositionsDistinct a b c d
    · exact ⟨_, exec_qr h a b c d hd, fun ins => exec_qr (h' ins) a b c d hd⟩
    · exact ⟨_, exec_qr_repeated h a b c d hd,
        fun ins => by rw [exec_qr_repeated (h' ins) a b c d hd, raiseFault_withInputs]⟩
  | colr => exact ⟨_, exec_colr h, fun ins => exec_colr (h' ins)⟩
  | diagr => exact ⟨_, exec_diagr h, fun ins => exec_diagr (h' ins)⟩
  | dblr => exact ⟨_, exec_dblr h, fun ins => exec_dblr (h' ins)⟩
  | mix => exact ⟨_, exec_mix h, fun ins => exec_mix (h' ins)⟩
  | init => exact ⟨_, exec_init h, fun ins => exec_init (h' ins)⟩
  | ffwd => exact ⟨_, exec_ffwd h, fun ins => exec_ffwd (h' ins)⟩
  | ser => exact ⟨_, exec_ser h, fun ins => exec_ser (h' ins)⟩
  | block => exact ⟨_, exec_block h, fun ins => exec_block (h' ins)⟩
  | lds j v => exact ⟨_, exec_lds h j v, fun ins => exec_lds (h' ins) j v⟩
  | rds j => exact ⟨_, exec_rds h j, fun ins => exec_rds (h' ins) j⟩
  | rdw j => exact ⟨_, exec_rdw h j, fun ins => exec_rdw (h' ins) j⟩
  | rdkb j =>
    exact ⟨_, exec_rdkb h j, fun ins => (exec_rdkb (h' ins) j).trans (congrArg _ (respondKey_withInputs _ s ins))⟩
  | rdkw j =>
    exact ⟨_, exec_rdkw h j, fun ins => (exec_rdkw (h' ins) j).trans (congrArg _ (respondKey_withInputs _ s ins))⟩
  | rdst => exact ⟨_, exec_rdst s, fun ins => exec_rdst (s.withInputs ins)⟩

/-- No command looks at what the host presents next (20_memory.md R50). -/
theorem exec_withInputs {i : Instr} (hi : exec i s = .next t) (ins : List HostInput) :
    exec i (s.withInputs ins) = .next (t.withInputs ins) := by
  suffices h : ∃ u, exec i s = .next u ∧ ∀ ins, exec i (s.withInputs ins) = .next (u.withInputs ins) by
    obtain ⟨u, hu, hall⟩ := h
    obtain rfl : u = t := Host.Outcome.next.inj (hu.symm.trans hi)
    exact hall ins
  cases h : s.ERR with
  | false => exact exec_withInputs_of_unlocked i h
  | true =>
    by_cases hrdst : i = .rdst
    · subst hrdst
      exact ⟨_, exec_rdst s, fun ins => exec_rdst (s.withInputs ins)⟩
    · exact ⟨_, exec_of_locked i h hrdst, fun ins => exec_of_locked (s := s.withInputs ins) i h hrdst⟩

theorem core_run_succ (h : step s = .next t) (k : Nat) : Sys2Proof.core.run (k + 1) s = Sys2Proof.core.run k t := by
  simp only [Host.Core.run, show Sys2Proof.core.step s = .next t from h]

/-- Commands presented on the command port do what they do one after another, and nothing is left to present. -/
theorem run_asInputs {is : List Instr} (h : execList is s = .next t) :
    Sys2Proof.core.run is.length (s.withInputs (asInputs is)) = .next (t.withInputs []) := by
  induction is generalizing s with
  | nil => cases h; rfl
  | cons i is ih =>
    cases hi : exec i s with
    | next u =>
      have hstep : step (s.withInputs (asInputs (i :: is))) = .next (u.withInputs (asInputs is)) :=
        (step_of_decode_ok rfl (decodeEncodeRoundTrip i)).trans (exec_withInputs hi _)
      rw [List.length_cons, core_run_succ hstep]
      exact ih ((execList_cons_of_next hi).symm.trans h)
    | fault f => simp [execList, hi] at h
    | refused r => simp [execList, hi] at h

end port

/-! ### Loading a state and computing its block (R175, R232) -/

/-- Commands and then `BLOCK`: the buffer holds the block function of the `S` they leave (R134, R139). -/
theorem execList_append_block {is : List Instr} {s t : State} (h : execList is s = .next t) (ht : t.ERR = false) :
    ∃ u, execList (is ++ [.block]) s = .next u ∧ u.S = t.S ∧ u.KB = blockF t.S ∧ u.KVALID = true ∧
      u.ERR = false := by
  obtain ⟨hvalid, hS, hERR, -⟩ := afterBlock_frame t
  have hKB : t.afterBlock.KB = blockF t.S := by rw [afterBlock_KB, afterBlock_W, blockF_eq]
  have hrun : execList (is ++ [.block]) s = .next t.afterBlock :=
    (execList_append h).trans (execList_cons_of_next (exec_block_eq ht))
  exact ⟨t.afterBlock, hrun, hS, hKB, hvalid, hERR.trans ht⟩

/-- All sixteen `LDS`, in any order, and `BLOCK`, one after another. -/
theorem execList_blockCommands (st : Words16) {order : List Pos} {s : State} (hs : s.Unlocked)
    (horder : order.Perm (List.finRange 16)) :
    ∃ t, execList (blockCommands st order) s = .next t ∧ t.S = st ∧ t.KB = blockF st ∧ t.KVALID = true ∧
      t.ERR = false := by
  obtain ⟨u, hlds, hwords, ⟨-, -, -, hERR, -, -⟩, -⟩ := execList_lds st order hs
  have hS : u.S = st := vector_ext fun k => by rw [hwords, if_pos (horder.mem_iff.2 (List.mem_finRange k))]
  have hblock := execList_append_block hlds (hERR.trans hs)
  rwa [hS] at hblock

/-- Settles O58: the commands on the port do what they do one after another, and `LDS 12` is all that two counter
values differ in. -/
theorem loadThenBlockGivesTheBlockFunction : Obligations.LoadThenBlockGivesTheBlockFunction := by
  refine ⟨fun st order s hs horder => ?_, fun key nonce c₁ c₂ s hs hS => ?_⟩
  · obtain ⟨t, ht, hS, hKB, hvalid, hERR⟩ := execList_blockCommands st hs horder
    have hlen : (blockCommands st order).length = 17 := by simp [blockCommands, horder.length_eq]
    exact ⟨t.withInputs [], hlen ▸ run_asInputs ht, hS, hKB, hvalid, hERR, rfl⟩
  · have hlds : execList [.lds 12 c₂] s = .next ((s.writeS 12 c₂).respond 0) :=
      execList_cons_of_next (exec_lds hs 12 c₂)
    have hnext : ((s.writeS 12 c₂).respond 0).S = initWords key c₂ nonce := by
      rw [State.respond_S, State.writeS_S, hS]
      exact initWords_set_counter key c₁ nonce c₂
    obtain ⟨t, ht, htS, htKB, -⟩ := execList_append_block hlds hs
    exact ⟨t, ht, htS.trans hnext, htKB.trans (congrArg blockF hnext)⟩

end Sys2Proof.Machine
end

section
/-! PROOFS. The statements about faults and lockout (60_exceptions.md): the fault entry, lockout, that reset is the only
way back, and that the machine never stops. -/

namespace Sys2Proof.Machine

variable {s t : State} {cmd d : Word} {rest : List HostInput}

/-! ### Lockout (R203) -/

/-- One word spells `RDST`, whatever the data operand. -/
theorem decode_eq_rdst_iff : decode cmd d = .ok .rdst ↔ cmd = 0x45000000 := by
  constructor
  · intro h
    obtain ⟨hcmd, -, -⟩ := decodedWordsAreTheEncodersWords cmd d .rdst h
    exact hcmd.symm
  · rintro rfl
    exact decode_eq_ok.2 ⟨.rdst, by decide, by decide, rfl⟩

/-- The step on `RDST`, locked out or not. -/
theorem step_rdst (hin : s.inputs = .command 0x45000000 d :: rest) :
    step s = .next (State.respond { s with inputs := rest } (statusWord s)) :=
  step_of_decode_ok hin (decode_eq_rdst_iff.2 rfl)

/-- Under lockout every other word is refused, whether it decodes or not. -/
theorem step_of_locked_of_ne_rdst (hin : s.inputs = .command cmd d :: rest) (hs : s.ERR = true)
    (hcmd : cmd ≠ 0x45000000) : step s = .next (State.refuse { s with inputs := rest }) := by
  have haccepted : State.ERR { s with inputs := rest } = true := hs
  cases hd : decode cmd d with
  | error e => rw [step_of_illegalWord hin hd, raiseFault_of_locked _ haccepted]
  | ok i =>
    have hi : i ≠ .rdst := by rintro rfl; exact hcmd (decode_eq_rdst_iff.1 hd)
    rw [step_of_decode_ok hin hd, exec_of_locked i haccepted hi]

/-- Settles O35: the word of `RDST` only responds, and every other word is refused. -/
theorem lockoutRefusesAllButRdst : Obligations.LockoutRefusesAllButRdst := by
  intro s cmd d rest hin hs
  by_cases hcmd : cmd = 0x45000000
  · subst hcmd
    exact ⟨_, step_rdst hin, rfl, rfl, answers_respond { s with inputs := rest } (statusWord s)⟩
  · rw [if_neg hcmd]
    exact ⟨_, step_of_locked_of_ne_rdst hin hs hcmd, rfl, rfl, answers_refuse { s with inputs := rest }⟩

/-- Settles O36: the refusal of `exec_of_locked` is given out and nothing else changes. -/
theorem everyCommandReadsErrFirst : Obligations.EveryCommandReadsErrFirst :=
  fun i s hs hi => ⟨_, exec_of_locked i hs hi, ⟨rfl, rfl⟩, answers_refuse s⟩

/-! ### The way back from a fault (R206) -/

/-- Nothing that a command may change clears `ERR`, `ERRCODE` or `KVALID`. -/
theorem State.MayChange.keeps_flags {i? : Option Instr} (h : s.MayChange i? t) :
    (s.ERR = true → t.ERR = true ∧ t.ERRCODE = s.ERRCODE) ∧ (s.KVALID = true → t.KVALID = true) := by
  refine ⟨fun hs => ?_, fun hs => ?_⟩
  · obtain ⟨hE, hC⟩ | ⟨hunlocked, -⟩ := h.error
    · exact ⟨hE.trans hs, hC⟩
    · cases hunlocked.symm.trans hs
  · obtain ⟨-, hK⟩ | ⟨-, hK⟩ := h.keystream
    · exact hK.trans hs
    · exact hK

/-- Settles O37: an idle step changes nothing, a command keeps the flags that are set, and reset leads to the reset
values. -/
theorem onlyResetClearsErrAndKvalid : Obligations.OnlyResetClearsErrAndKvalid := by
  refine fun s t h => ⟨fun hreset => ?_, fun rest hin => ?_⟩
  · match hin : s.inputs with
    | [] => cases (step_idle hin).symm.trans h; exact ⟨fun hs => ⟨hs, rfl⟩, id⟩
    | .reset :: rest => exact absurd hin (hreset rest)
    | .command cmd d :: rest => exact (mayChange_of_step hin h).keeps_flags
  · cases (step_reset hin).symm.trans h
    exact ⟨rfl, rfl, rfl, rfl, rfl, rfl⟩

/-! ### The fault entry (R201, R202) -/

/-- The `err` pin shows `ERR`, outside the cycle after a reset edge. -/
theorem Clocked.pins_err (p : Clocked) (h : p.resetCycle = false) : p.pins.err = some p.core.ERR := by
  simp [Clocked.pins, h]

/-- A keystream read with `KVALID` = 0, of a byte or of a word. -/
theorem exec_keystreamRead_of_invalid (hs : s.Unlocked) (hk : s.KVALID = false) :
    (∀ j, exec (.rdkb j) s = .next (raiseFault .keystreamNotValid s)) ∧
      ∀ i, exec (.rdkw i) s = .next (raiseFault .keystreamNotValid s) :=
  ⟨fun j => by rw [exec_rdkb hs, respondKey_of_invalid _ hk],
    fun i => by rw [exec_rdkw hs, respondKey_of_invalid _ hk]⟩

/-- Settles O33: each command that raises a fault answers `raiseFault` of its cause. -/
theorem faultEntryWritesErrAndErrcodeOnly : Obligations.FaultEntryWritesErrAndErrcodeOnly := by
  refine fun s c hs => ⟨takesFault_raiseFault c hs, fun p hcore hcycle => ?_, exec_rolw_zero hs, exec_qr_repeated hs,
    exec_keystreamRead_of_invalid hs⟩
  rw [p.pins_err hcycle, hcore, raiseFault_ERR]

/-! ### The machine never stops (R202, R203, R243) -/

/-- Settles O43: `exec_givesOut` and `step_givesOut` name the next state of every command and of every step. -/
theorem everyStepAnswersANextState : Obligations.EveryStepAnswersANextState := by
  refine ⟨fun i s => ?_, fun s => ?_⟩
  · obtain ⟨t, -, ht, -⟩ := exec_givesOut i s
    exact ⟨t, ht⟩
  · obtain ⟨t, -, ht, -⟩ := step_givesOut s
    exact ⟨t, ht⟩

end Sys2Proof.Machine
end

section
/-! PROOFS. The statements about reset and the clock (70_reset_and_hazards.md). A command in flight is described by how
many of its passes are complete in each cycle after its acceptance; from that follow the cycle of every event, and that
the response cycle is the command-level step. -/

namespace Sys2Proof.Machine

/-! ### Reset and one edge at a time (R230, R231, R245) -/

/-- Settles O2: the reset step leaves nothing of the tuple that was there. -/
theorem resetLeadsToResetState : Obligations.ResetLeadsToResetState :=
  ⟨fun _ _ hin => ⟨_, step_reset hin, rfl⟩, rfl⟩

section edge

variable {T : Timing} {c : Clocked} {i : PinIn} {core t : State} {p : Flight × Option Event}

/-- A reset edge (R230). -/
theorem Clocked.edge_reset (hi : i.rst = true) :
    c.edge T i =
      { core := c.core.applyReset, flight := none, cmdReady := false, rsp := none, obs := none,
        resetCycle := true } := by
  simp [edge, hi]

/-- The CORE becomes ready in a cycle after one in which it was neither ready nor running a command. -/
theorem Clocked.edge_of_notReady (hi : i.rst = false) (hflight : c.flight = none) (hready : c.cmdReady = false) :
    c.edge T i =
      { core := c.core, flight := none, cmdReady := true, rsp := none, obs := none, resetCycle := false } := by
  simp [edge, hi, hflight, hready]

/-- A cycle with a command in flight that has just presented an event or none. -/
def Clocked.inFlight (core : State) (p : Flight × Option Event) : Clocked :=
  { core := core, flight := some p.1, cmdReady := false, rsp := none, obs := p.2, resetCycle := false }

/-- The acceptance edge (R245 a). -/
theorem Clocked.edge_accept (hi : i.rst = false) (hflight : c.flight = none) (hready : c.cmdReady = true)
    (hvalid : i.cmdValid = true) : c.edge T i = inFlight c.core (startFlight c.core i.cmd i.cmdData, none) := by
  simp [edge, inFlight, hi, hflight, hready, hvalid]

/-- An edge before the response cycle runs the command on and leaves the state alone. -/
theorem Clocked.edge_inFlight (hi : i.rst = false) (hage : p.1.age + 1 ≠ T.lat p.1.opc) :
    (inFlight core p).edge T i = inFlight core (p.1.advance T) := by
  simp [edge, inFlight, hi, hage]

/-- The edge that begins the response cycle makes the command-level step (R245 c, e). -/
theorem Clocked.edge_response (hi : i.rst = false) (hage : p.1.age + 1 = T.lat p.1.opc)
    (hstep : step (core.present (.command (p.1.advance T).1.cmd (p.1.advance T).1.cmdData)) = .next t) :
    (inFlight core p).edge T i =
      { core := t, flight := none, cmdReady := false, rsp := lastResponse t.outputs, obs := (p.1.advance T).2,
        resetCycle := false } := by
  simp [edge, inFlight, complete, hi, hage, hstep]

end edge

/-- Settles O50: `edge_reset` for the reset edge, `edge_of_notReady` for the one after it. -/
theorem resetEdgeAbandonsTheCommand : Obligations.ResetEdgeAbandonsTheCommand := by
  intro T c i j hi hj
  have hreset := Clocked.edge_reset (T := T) (c := c) hi
  have hnext := Clocked.edge_of_notReady (T := T) (c := c.edge T i) hj (by rw [hreset]) (by rw [hreset])
  rw [hnext, hreset]
  exact ⟨rfl, rfl, rfl, rfl, rfl, rfl, rfl, rfl, rfl, rfl, rfl⟩

/-! ### The passes of a command in flight (R28, R119, R245 d) -/

theorem Timing.obsAt_strictMono (T : Timing) (opc : Nat) : StrictMono (T.obsAt opc) :=
  strictMono_nat_of_lt_succ (T.obs_increasing opc)

theorem Timing.obsAt_pos (T : Timing) (opc k : Nat) : 1 ≤ T.obsAt opc k :=
  (T.obs_after_acceptance opc).trans ((T.obsAt_strictMono opc).monotone k.zero_le)

/-- Of the given number of passes, the first n and no others are due by cycle m after acceptance. -/
def Timing.PassesBy (T : Timing) (opc passes m n : Nat) : Prop :=
  (∀ k, k < n → T.obsAt opc k ≤ m) ∧ ∀ k, n ≤ k → k < passes → m < T.obsAt opc k

section passesBy

variable {T : Timing} {opc passes m n k : Nat}

theorem Timing.passesBy_zero (T : Timing) (opc passes : Nat) : T.PassesBy opc passes 0 0 :=
  ⟨fun _ hk => absurd hk (Nat.not_lt_zero _), fun k _ _ => T.obsAt_pos opc k⟩

/-- A cycle in which the next pass is due. -/
theorem Timing.PassesBy.succ_of_due (h : T.PassesBy opc passes m n) (hdue : m + 1 = T.obsAt opc n) :
    T.PassesBy opc passes (m + 1) (n + 1) := by
  obtain ⟨hdone, -⟩ := h
  refine ⟨fun k hk => ?_, fun k hk _ => hdue ▸ T.obsAt_strictMono opc hk⟩
  obtain hk | rfl := Nat.lt_succ_iff_lt_or_eq.1 hk
  · exact (hdone k hk).trans m.le_succ
  · exact hdue.ge

/-- A cycle in which no pass is due. -/
theorem Timing.PassesBy.succ_of_not_due (h : T.PassesBy opc passes m n) (hdue : n < passes → m + 1 ≠ T.obsAt opc n) :
    T.PassesBy opc passes (m + 1) n := by
  obtain ⟨hdone, hpending⟩ := h
  refine ⟨fun k hk => (hdone k hk).trans m.le_succ, fun k hk hkp => ?_⟩
  have hn := hk.trans_lt hkp
  calc m + 1 < T.obsAt opc n := lt_of_le_of_ne (hpending n le_rfl hn) (hdue hn)
    _ ≤ T.obsAt opc k := (T.obsAt_strictMono opc).monotone hk

/-- A pass due in the next cycle is the next one to run. -/
theorem Timing.PassesBy.eq_of_due (h : T.PassesBy opc passes m n) (hk : k < passes) (hdue : T.obsAt opc k = m + 1) :
    n = k := by
  obtain ⟨hdone, hpending⟩ := h
  obtain hlt | rfl | hlt := lt_trichotomy n k
  · have := hpending n le_rfl (hlt.trans hk)
    have := T.obsAt_strictMono opc hlt
    omega
  · rfl
  · have := hdone k hlt
    omega

end passesBy

theorem passCount_le (opc : Nat) : passCount opc ≤ 20 := by
  unfold passCount
  cases Opcode.ofCode? opc with
  | none => exact Nat.zero_le 20
  | some o => cases o <;> decide

/-- A cycle in which the next pass is due (R118). -/
theorem Flight.advance_of_due {T : Timing} {f : Flight} {k : PassKind} {ks : List PassKind} (htodo : f.todo = k :: ks)
    (hdue : f.age + 1 = T.obsAt f.opc f.pidx.toNat) :
    f.advance T = ({ f with W := runPass k f.W, pidx := f.pidx + 1, todo := ks, age := f.age + 1 },
      some { idx := f.pidx, kind := k, snapshot := runPass k f.W }) := by
  simp only [advance, htodo, if_pos hdue]

/-- A cycle in which no pass is left or the next is not due. -/
theorem Flight.advance_of_not_due {T : Timing} {f : Flight}
    (hdue : f.todo ≠ [] → f.age + 1 ≠ T.obsAt f.opc f.pidx.toNat) :
    f.advance T = ({ f with age := f.age + 1 }, none) := by
  cases htodo : f.todo with
  | nil => simp only [advance, htodo]
  | cons k ks => simp only [advance, htodo, if_neg (hdue (by simp [htodo]))]

/-- The command in flight in cycle `age` after acceptance, with the first n of its passes ks complete. -/
def Flight.atPass (cmd d : Word) (W : Words16) (ks : List PassKind) (n age : Nat) : Flight :=
  { cmd := cmd, cmdData := d, W := (ks.take n).foldl (fun w k => runPass k w) W, pidx := BitVec.ofNat 5 n,
    todo := ks.drop n, age := age }

/-- What is in flight in cycle m after the acceptance of f, and the event presented in that cycle. -/
def Flight.cycle (T : Timing) (f : Flight) : Nat → Flight × Option Event
  | 0 => (f, none)
  | m + 1 => (f.cycle T m).1.advance T

section flight

variable {T : Timing} {cmd d : Word} {W : Words16} {ks : List PassKind} {m n k : Nat}
variable (hks : ks.length ≤ passCount (bits cmd 31 24))
include hks

/-- `PIDX` counts the complete passes without wrapping. -/
theorem Flight.atPass_pidx_toNat (hn : n < ks.length) : (atPass cmd d W ks n m).pidx.toNat = n := by
  have := passCount_le (bits cmd 31 24)
  exact Nat.mod_eq_of_lt (by omega)

/-- A cycle in which the next pass is due completes it and presents its event. -/
theorem Flight.advance_atPass_of_due (hn : n < ks.length) (hdue : m + 1 = T.obsAt (bits cmd 31 24) n) :
    (atPass cmd d W ks n m).advance T = (atPass cmd d W ks (n + 1) (m + 1), (runPasses ks 0 W).2[n]?) := by
  have hage : (atPass cmd d W ks n m).age + 1 =
      T.obsAt (atPass cmd d W ks n m).opc (atPass cmd d W ks n m).pidx.toNat := by
    rw [atPass_pidx_toNat hks hn]
    exact hdue
  have hW : runPass ks[n] (atPass cmd d W ks n m).W = (atPass cmd d W ks (n + 1) (m + 1)).W := by
    simp only [atPass, List.take_add_one, List.getElem?_eq_getElem hn, List.foldl_append]
    rfl
  have hpidx : (atPass cmd d W ks n m).pidx + 1 = BitVec.ofNat 5 (n + 1) := (BitVec.ofNat_add n 1).symm
  rw [advance_of_due (List.drop_eq_getElem_cons hn) hage, hW, hpidx, runPasses_getElem?, List.getElem?_eq_getElem hn]
  simp only [atPass, zero_add, Option.map_some]

/-- A cycle in which no pass is due presents nothing. -/
theorem Flight.advance_atPass_of_not_due (hdue : n < ks.length → m + 1 ≠ T.obsAt (bits cmd 31 24) n) :
    (atPass cmd d W ks n m).advance T = (atPass cmd d W ks n (m + 1), none) := by
  refine advance_of_not_due fun htodo => ?_
  have hn : n < ks.length := Nat.lt_of_not_le fun hle => htodo (List.drop_eq_nil_of_le hle)
  rw [atPass_pidx_toNat hks hn]
  exact hdue hn

/-- In every cycle the passes that are due by then are complete, and no others. -/
theorem Flight.exists_cycle_eq_atPass (T : Timing) (d : Word) (W : Words16) (m : Nat) :
    ∃ n, T.PassesBy (bits cmd 31 24) ks.length m n ∧
      ((atPass cmd d W ks 0 0).cycle T m).1 = atPass cmd d W ks n m := by
  induction m with
  | zero => exact ⟨0, T.passesBy_zero _ _, rfl⟩
  | succ m ih =>
    obtain ⟨n, hby, hcycle⟩ := ih
    rw [cycle, hcycle]
    by_cases hdue : n < ks.length ∧ m + 1 = T.obsAt (bits cmd 31 24) n
    · exact ⟨n + 1, hby.succ_of_due hdue.2, by rw [advance_atPass_of_due hks hdue.1 hdue.2]⟩
    · have hdue := not_and.1 hdue
      exact ⟨n, hby.succ_of_not_due hdue, by rw [advance_atPass_of_not_due hks hdue]⟩

/-- In the cycle of a pass its event is presented. -/
theorem Flight.cycle_obs_of_due (hk : k < ks.length) :
    ((atPass cmd d W ks 0 0).cycle T (T.obsAt (bits cmd 31 24) k)).2 = (runPasses ks 0 W).2[k]? := by
  obtain ⟨m, hm⟩ := Nat.exists_eq_add_of_le' (T.obsAt_pos (bits cmd 31 24) k)
  obtain ⟨n, hby, hcycle⟩ := exists_cycle_eq_atPass hks T d W m
  obtain rfl := hby.eq_of_due hk hm
  rw [hm, cycle, hcycle, advance_atPass_of_due hks hk hm.symm]

/-- In the cycle of no pass no event is presented. -/
theorem Flight.cycle_obs_of_not_due (hm : ∀ k, k < ks.length → m ≠ T.obsAt (bits cmd 31 24) k) :
    ((atPass cmd d W ks 0 0).cycle T m).2 = none := by
  cases m with
  | zero => rfl
  | succ m =>
    obtain ⟨n, -, hcycle⟩ := exists_cycle_eq_atPass hks T d W m
    rw [cycle, hcycle, advance_atPass_of_not_due hks (hm n)]

/-- The command in flight keeps its words and counts the cycles since its acceptance. -/
theorem Flight.cycle_fields (T : Timing) (d : Word) (W : Words16) (m : Nat) :
    ((atPass cmd d W ks 0 0).cycle T m).1.cmd = cmd ∧ ((atPass cmd d W ks 0 0).cycle T m).1.cmdData = d ∧
      ((atPass cmd d W ks 0 0).cycle T m).1.age = m := by
  obtain ⟨n, -, hcycle⟩ := exists_cycle_eq_atPass hks T d W m
  rw [hcycle]
  exact ⟨rfl, rfl, rfl⟩

end flight

/-! ### What is in flight is what the command-level step gives out (R11, R118, R119) -/

/-- The working state that the first pass of a command sees: for `BLOCK` the copy of `S` (R139). -/
def passInput (i : Instr) (s : State) : Words16 := if i.opcode = .block then s.S else s.W

section commandLevel

variable {s : State} {cmd d : Word} {i : Instr}

/-- The commands without a row in R119's table. -/
theorem passesOf_eq_nil (hmixer : i ∉ mixerCommands) (hblock : i ≠ .block) : passesOf i.opcode = [] := by
  cases i with
  | colr | diagr | dblr | mix => exact absurd (by decide) hmixer
  | block => exact absurd rfl hblock
  | _ => rfl

/-- On a CORE that is not locked out a command answers with the events of its passes. -/
theorem exec_answers_of_unlocked (i : Instr) (h : s.ERR = false) :
    ∃ t r, exec i s = .next t ∧ s.Answers t (runPasses (passesOf i.opcode) 0 (passInput i s)).2 r := by
  suffices hgives : ∃ t r, GivesOut (exec i) s t
      ((runPasses (passesOf i.opcode) 0 (passInput i s)).2.map .event ++ [.response r]) by
    obtain ⟨t, r, hgives⟩ := hgives
    exact ⟨t, r, hgives.1, hgives.outputs.trans (List.append_assoc ..).symm⟩
  by_cases hmixer : i ∈ mixerCommands
  · have hinput : passInput i s = s.W := by
      refine if_neg fun hblock => ?_
      cases i with
      | block => exact absurd hmixer (by decide)
      | _ => cases hblock
    rw [hinput]
    exact ⟨_, _, exec_mixerCommand_givesOut hmixer h⟩
  · by_cases hblock : i = .block
    · subst hblock
      exact ⟨_, _, exec_block_givesOut h⟩
    · obtain ⟨t, w, r, hgives⟩ := exec_givesOut_of_unlocked i h
      rw [passesOf_eq_nil hmixer hblock] at hgives ⊢
      exact ⟨t, r, hgives⟩

/-- A command word that is not run has no pass in flight. -/
theorem startFlight_of_refused (h : accept cmd d s = .lockedOut s ∨ ∃ c, accept cmd d s = .illegal c s) :
    startFlight s cmd d = .atPass cmd d s.W [] 0 0 := by
  obtain h | ⟨c, h⟩ := h <;> simp [startFlight, h, Flight.atPass]

theorem startFlight_of_run (h : accept cmd d s = .run i s) :
    startFlight s cmd d = .atPass cmd d (passInput i s) (passesOf i.opcode) 0 0 := by
  simp [startFlight, h, Flight.atPass, passInput]

theorem passCount_of_decode (h : decode cmd d = .ok i) : passCount (bits cmd 31 24) = (passesOf i.opcode).length := by
  simp only [passCount, ← opcode_code_of_decode h, Opcode.ofCode?_code]

/-- A command that is run on acceptance (R70) answers with the events of its passes: under lockout it is `RDST`, which
has none. -/
theorem exec_answers_of_decode (hi : decode cmd d = .ok i) (h : s.ERR = false ∨ bits cmd 31 24 = Opcode.rdst.code) :
    ∃ t r, exec i s = .next t ∧ s.Answers t (runPasses (passesOf i.opcode) 0 (passInput i s)).2 r := by
  obtain h | hopc := h
  · exact exec_answers_of_unlocked i h
  · have hrdst : i.opcode = .rdst := Opcode.code_injective ((opcode_code_of_decode hi).trans hopc)
    cases i with
    | rdst => exact ⟨_, _, exec_rdst s, answers_respond s _⟩
    | _ => cases hrdst

/-- The passes put in flight at acceptance are those whose events the command-level step gives out, before its one
response. -/
theorem startFlight_carries_step (s : State) (cmd d : Word) :
    ∃ W ks t r, startFlight s cmd d = .atPass cmd d W ks 0 0 ∧ ks.length ≤ passCount (bits cmd 31 24) ∧
      step (s.present (.command cmd d)) = .next t ∧ s.Answers t (runPasses ks 0 W).2 r := by
  obtain ⟨-, -, ha⟩ | ⟨hrun, ⟨e, -, ha⟩ | ⟨i, hi, ha⟩⟩ := accept_cases cmd d s
  · exact ⟨_, _, _, _, startFlight_of_refused (.inl ha), Nat.zero_le _, step_of_lockedOut rfl ha, answers_refuse s⟩
  · exact ⟨_, _, _, _, startFlight_of_refused (.inr ⟨_, ha⟩), Nat.zero_le _, step_of_illegal rfl ha,
      answers_raiseFault _ s⟩
  · obtain ⟨t, r, ht, hanswers⟩ := exec_answers_of_decode hi hrun
    have hstep := (step_of_run (s := s.present (.command cmd d)) rfl ha).trans ht
    exact ⟨_, _, t, r, startFlight_of_run ha, (passCount_of_decode hi).ge, hstep, hanswers⟩

theorem State.Answers.lastResponse_eq {t : State} {es : List Event} {r : Response} (h : s.Answers t es r) :
    lastResponse t.outputs = some r := by
  simp [lastResponse, show t.outputs = _ from h]

end commandLevel

/-! ### A command on the pins, from acceptance to the response (R245) -/

section run

variable {T : Timing} {c : Clocked} {ins : Nat → PinIn} {cmd d : Word} {W : Words16} {ks : List PassKind} {t : State}
variable (hrst : ∀ n, (ins n).rst = false)
variable (haccept : c.edge T (ins 0) = .inFlight c.core (.atPass cmd d W ks 0 0, none))
variable (hks : ks.length ≤ passCount (bits cmd 31 24))
include hrst haccept hks

/-- Until the response cycle the command is in flight and the state is the one it was accepted in. -/
theorem Clocked.after_of_lt_lat {m : Nat} (hm : m < T.lat (bits cmd 31 24)) :
    c.after T ins (1 + m) = inFlight c.core ((Flight.atPass cmd d W ks 0 0).cycle T m) := by
  induction m with
  | zero => exact haccept
  | succ m ih =>
    obtain ⟨hcmd, -, hage⟩ := Flight.cycle_fields hks T d W m
    rw [← Nat.add_assoc, after, ih (Nat.lt_of_succ_lt hm)]
    exact edge_inFlight (hrst _) (by rw [Flight.opc, hcmd, hage]; exact hm.ne)

variable (hstep : step (c.core.present (.command cmd d)) = .next t)
include hstep

/-- The response cycle. -/
theorem Clocked.after_lat :
    c.after T ins (1 + T.lat (bits cmd 31 24)) =
      { core := t, flight := none, cmdReady := false, rsp := lastResponse t.outputs,
        obs := ((Flight.atPass cmd d W ks 0 0).cycle T (T.lat (bits cmd 31 24))).2, resetCycle := false } := by
  obtain ⟨m, hm⟩ := Nat.exists_eq_add_of_le' (T.lat_pos (bits cmd 31 24))
  obtain ⟨hcmd, -, hage⟩ := Flight.cycle_fields hks T d W m
  obtain ⟨hcmd', hdata', -⟩ := Flight.cycle_fields hks T d W (m + 1)
  rw [hm, ← Nat.add_assoc, after, after_of_lt_lat hrst haccept hks (by omega)]
  refine edge_response (hrst _) (by rw [Flight.opc, hcmd, hage, hm]) ?_
  rw [Flight.cycle] at hcmd' hdata'
  rwa [hcmd', hdata']

/-- The cycle after the response. -/
theorem Clocked.after_lat_succ :
    c.after T ins (2 + T.lat (bits cmd 31 24)) =
      { core := t, flight := none, cmdReady := true, rsp := none, obs := none, resetCycle := false } := by
  have hlat := after_lat hrst haccept hks hstep
  rw [show 2 + T.lat (bits cmd 31 24) = 1 + T.lat (bits cmd 31 24) + 1 by omega, after, hlat]
  exact edge_of_notReady (hrst _) rfl rfl

/-- Up to the response cycle the pins present what the command in flight does. -/
theorem Clocked.after_obs {m : Nat} (hm : m ≤ T.lat (bits cmd 31 24)) :
    (c.after T ins (1 + m)).obs = ((Flight.atPass cmd d W ks 0 0).cycle T m).2 := by
  obtain hm | rfl := hm.lt_or_eq
  · rw [after_of_lt_lat hrst haccept hks hm, inFlight]
  · rw [after_lat hrst haccept hks hstep]

end run

/-- Settles O49: `after_of_lt_lat`, `after_lat` and `after_lat_succ` are the cycles of the command on the pins, and the
passes put in flight are those of the command-level step. -/
theorem pinsCarryTheCommandLevelStep : Obligations.PinsCarryTheCommandLevelStep := by
  intro T c ins hflight hready hvalid hrst opc
  obtain ⟨W, ks, t, r, hstart, hks, hstep, hanswers⟩ := startFlight_carries_step c.core (ins 0).cmd (ins 0).cmdData
  have haccept := Clocked.edge_accept (T := T) (hrst 0) hflight hready hvalid
  rw [hstart] at haccept
  have hbefore (m : Nat) (hm : m < T.lat opc) := Clocked.after_of_lt_lat hrst haccept hks hm
  have hresponse := Clocked.after_lat hrst haccept hks hstep
  have hnext := Clocked.after_lat_succ hrst haccept hks hstep
  have hobs (m : Nat) (hm : m ≤ T.lat opc) := Clocked.after_obs hrst haccept hks hstep hm
  rw [hanswers.lastResponse_eq] at hresponse
  refine ⟨t, _, r, hstep, hanswers, fun m hm => ?_, ?_⟩
  · rw [hbefore m hm]
    exact ⟨rfl, rfl, rfl⟩
  rw [hresponse, hnext]
  refine ⟨rfl, rfl, rfl, rfl, rfl, rfl, fun k e he => ?_, fun m hm hne => ?_⟩
  · have hk : k < ks.length := by
      rw [← runPasses_length ks 0 W]
      exact (List.getElem?_eq_some_iff.1 he).1
    have hlat : T.obsAt opc k ≤ T.lat opc := T.obs_by_response opc k (hk.trans_le hks)
    exact ⟨hlat, by rw [hobs _ hlat, Flight.cycle_obs_of_due hks hk, he]⟩
  · rw [runPasses_length] at hne
    rw [hobs m hm, Flight.cycle_obs_of_not_due hks hne]

end Sys2Proof.Machine
end
